-- ==== Sys2Proof/Word.lean ====
section
/-! DEFINITION. The value a memory cell holds: a mathematical integer (rule R12) inside a fixed domain (rule R6). -/

namespace Sys2Proof

/-- `VALUE_MIN` of rule R6, `-(2^53 - 1)`. -/
@[simp] abbrev valueMin : Int := -9007199254740991

/-- `VALUE_MAX` of rule R6, `2^53 - 1`. -/
@[simp] abbrev valueMax : Int := 9007199254740991

/-- The cell value domain `[VALUE_MIN, VALUE_MAX]` (rules R6 and R39). -/
abbrev InDomain (v : Int) : Prop := valueMin ≤ v ∧ v ≤ valueMax

end Sys2Proof
end

