-- ==== Sys2Proof/Config.lean ====
section
/-! DEFINITION. The implementation parameters of 00_scope.md section 3, each at the value this hardware takes, and the
values the spec leaves OPEN, which have no body here. `VALUE_MIN` and `VALUE_MAX` are in Word.lean, the opcode map in
Decode.lean, `INDIRECT_OPERANDS` is a field of `State`. -/

namespace Sys2Proof.Config

/-- `TOTAL_MEMORY_SIZE` (rule R5). -/
@[simp] abbrev totalMemorySize : Int := 3100

/-- `WORKING_MEMORY_START` (rule R7). -/
@[simp] abbrev workingStart : Int := 0

/-- `WORKING_MEMORY_END` (rule R7). -/
@[simp] abbrev workingEnd : Int := 1000

/-- `PROGRAM_MEMORY_START` (rule R7). -/
@[simp] abbrev programStart : Int := 1000

/-- `PROGRAM_MEMORY_END` (rule R7). -/
@[simp] abbrev programEnd : Int := 2000

/-- `PROGRAM_MEMORY_SIZE` (rule R7). -/
@[simp] abbrev programSize : Nat := 1000

/-- `INPUT_START` (rule R7). -/
@[simp] abbrev inputStart : Int := 2000

/-- `INPUT_END` (rule R7). -/
@[simp] abbrev inputEnd : Int := 2050

/-- `VIDEO_MEMORY_START` (rule R7). -/
@[simp] abbrev videoStart : Int := 2050

/-- `VIDEO_MEMORY_END` (rule R7). -/
@[simp] abbrev videoEnd : Int := 3074

/-- `AUDIO_START` (rule R7). -/
@[simp] abbrev audioStart : Int := 3074

/-- `AUDIO_END` (rule R7). -/
@[simp] abbrev audioEnd : Int := 3100

/-- `KEYCODE_DEPTH` (rule R8). -/
@[simp] abbrev keycodeDepth : Nat := 3

/-- `VIDEO_WIDTH` (rule R8). -/
@[simp] abbrev videoWidth : Int := 32

/-- `VIDEO_HEIGHT` (rule R8). -/
@[simp] abbrev videoHeight : Int := 32

/-- `AUDIO_CHANNELS` (rule R8). -/
@[simp] abbrev audioChannels : Int := 3

/-- `PALETTE_SIZE` (rule R8); no rule of the block uses it (rule R139). -/
@[simp] abbrev paletteSize : Int := 16

/-- FREE VALUE: what the host puts on input port `port` for the `n`-th input vector it supplies, as an offset from
`VALUE_MIN`. Rule R34: the values are free inputs of the step, and the block assumes nothing of them but the domain,
which is all the type says (the domain of rule R6 has `2^54 - 1` integers). -/
opaque hostValue : Nat → Nat → Fin 18014398509481983

/-- FREE VALUE: `CYCLES_PER_BATCH`, OPEN (rule R11). -/
opaque cyclesPerBatch : Nat

end Sys2Proof.Config
end

