-- ==== Sys2Proof/Syntax.lean ====
section
/-! DEFINITION. The 25 instructions (rule R2), one constructor per row of spec/opcode_table.json. Every operand is the raw
integer of its cell (rules R64 and R73); the operand names are those of rule R62. -/

namespace Sys2Proof

/-- An instruction with its raw operand cells, in operand order (rule R62). -/
inductive Instr where
  | copyToFrom (destination source : Int)
  | copyToFromConstant (destination value : Int)
  | copyToFromAddress (destination sourcePointer : Int)
  | copyIntoAddress (destinationPointer source : Int)
  | copyAddressOfLabel (destination label : Int)
  | add (a b result : Int)
  | addConstant (a b result : Int)
  | subtract (a b result : Int)
  | subtractConstant (a b result : Int)
  | multiply (a b result : Int)
  | multiplyConstant (a b result : Int)
  | divide (a b result : Int)
  | divideConstant (a b result : Int)
  | modulo (a b result : Int)
  | moduloConstant (a b result : Int)
  | compare (a b result : Int)
  | compareConstant (a b result : Int)
  | jumpTo (label : Int)
  | branchIfEqual (a b label : Int)
  | branchIfEqualConstant (a b label : Int)
  | branchIfNotEqual (a b label : Int)
  | branchIfNotEqualConstant (a b label : Int)
  | data
  | breakRun
  | halt
deriving DecidableEq, Repr

end Sys2Proof
end

