-- ==== Sys2Proof/WellFormed.lean ====
section
/-! DEFINITION. Which instructions the cells of memory can hold: an operand is the whole content of a cell (rule R64), so
it lies in the cell value domain (rules R39 and R69); nothing else is asked of it at decode time. -/

namespace Sys2Proof

/-- The operand cells of an instruction, in operand order (rules R61 and R62). -/
def Instr.operands : Instr → List Int
  | .copyToFrom d s => [d, s]
  | .copyToFromConstant d v => [d, v]
  | .copyToFromAddress d p => [d, p]
  | .copyIntoAddress p s => [p, s]
  | .copyAddressOfLabel d l => [d, l]
  | .add a b r => [a, b, r]
  | .addConstant a b r => [a, b, r]
  | .subtract a b r => [a, b, r]
  | .subtractConstant a b r => [a, b, r]
  | .multiply a b r => [a, b, r]
  | .multiplyConstant a b r => [a, b, r]
  | .divide a b r => [a, b, r]
  | .divideConstant a b r => [a, b, r]
  | .modulo a b r => [a, b, r]
  | .moduloConstant a b r => [a, b, r]
  | .compare a b r => [a, b, r]
  | .compareConstant a b r => [a, b, r]
  | .jumpTo l => [l]
  | .branchIfEqual a b l => [a, b, l]
  | .branchIfEqualConstant a b l => [a, b, l]
  | .branchIfNotEqual a b l => [a, b, l]
  | .branchIfNotEqualConstant a b l => [a, b, l]
  | .data => []
  | .breakRun => []
  | .halt => []

/-- Every operand lies in the cell value domain (rules R39 and R64). -/
abbrev Instr.WellFormed (i : Instr) : Prop := ∀ v ∈ i.operands, InDomain v

end Sys2Proof
end

