-- ==== Sys2Proof/Decode.lean ====
section
/-! DEFINITION. The opcode map and the operand signatures (rules R62 and R63), the decoder on memory cells (rules R64 to
R66), the encoder (rule R61), and the layout of cells as bits that the host's table question needs. -/

namespace Sys2Proof

/-- The 25 mnemonics, without operands: what an opcode cell names (rule R63). -/
inductive Opcode where
  | copyToFrom | copyToFromConstant | copyToFromAddress | copyIntoAddress | copyAddressOfLabel
  | add | addConstant | subtract | subtractConstant | multiply | multiplyConstant
  | divide | divideConstant | modulo | moduloConstant
  | compare | compareConstant
  | jumpTo | branchIfEqual | branchIfEqualConstant | branchIfNotEqual | branchIfNotEqualConstant
  | data | breakRun | halt
deriving DecidableEq, Repr

/-- The four operand kinds (rule R67). -/
inductive OperandKind where
  /-- The raw value is a cell address or, under the option, an indirect encoding. -/
  | address
  /-- The raw value is a literal. -/
  | constant
  /-- The raw value is the address of a cell that holds an address. -/
  | pointer
  /-- The raw value is an absolute program address the assembler resolved. -/
  | label
deriving DecidableEq, Repr

/-- Every mnemonic, in the order of rule R63. -/
def Opcode.all : List Opcode :=
  [.copyToFrom, .copyToFromConstant, .copyToFromAddress, .copyIntoAddress, .copyAddressOfLabel,
   .add, .addConstant, .subtract, .subtractConstant, .multiply, .multiplyConstant,
   .divide, .divideConstant, .modulo, .moduloConstant, .compare, .compareConstant,
   .jumpTo, .branchIfEqual, .branchIfEqualConstant, .branchIfNotEqual, .branchIfNotEqualConstant,
   .data, .breakRun, .halt]

/-- `OPCODE_MAP`, the default of rule R63. -/
def Opcode.code : Opcode → Int
  | .copyToFrom => 9000
  | .copyToFromConstant => 9001
  | .copyToFromAddress => 9002
  | .copyIntoAddress => 9003
  | .copyAddressOfLabel => 9004
  | .add => 9010
  | .addConstant => 9011
  | .subtract => 9020
  | .subtractConstant => 9021
  | .multiply => 9030
  | .multiplyConstant => 9031
  | .divide => 9040
  | .divideConstant => 9041
  | .modulo => 9050
  | .moduloConstant => 9051
  | .compare => 9090
  | .compareConstant => 9091
  | .jumpTo => 9100
  | .branchIfEqual => 9101
  | .branchIfEqualConstant => 9102
  | .branchIfNotEqual => 9103
  | .branchIfNotEqualConstant => 9104
  | .data => 9200
  | .breakRun => 9998
  | .halt => 9999

/-- The mnemonic as spec/opcode_table.json and the assembler spell it (rule R62). -/
def Opcode.name : Opcode → String
  | .copyToFrom => "copy_to_from"
  | .copyToFromConstant => "copy_to_from_constant"
  | .copyToFromAddress => "copy_to_from_address"
  | .copyIntoAddress => "copy_into_address"
  | .copyAddressOfLabel => "copy_address_of_label"
  | .add => "add"
  | .addConstant => "add_constant"
  | .subtract => "subtract"
  | .subtractConstant => "subtract_constant"
  | .multiply => "multiply"
  | .multiplyConstant => "multiply_constant"
  | .divide => "divide"
  | .divideConstant => "divide_constant"
  | .modulo => "modulo"
  | .moduloConstant => "modulo_constant"
  | .compare => "compare"
  | .compareConstant => "compare_constant"
  | .jumpTo => "jump_to"
  | .branchIfEqual => "branch_if_equal"
  | .branchIfEqualConstant => "branch_if_equal_constant"
  | .branchIfNotEqual => "branch_if_not_equal"
  | .branchIfNotEqualConstant => "branch_if_not_equal_constant"
  | .data => "data"
  | .breakRun => "break"
  | .halt => "halt"

/-- The operand signature (rule R62); `data` has no operand at execution (rule R127). -/
def Opcode.kinds : Opcode → List OperandKind
  | .copyToFrom => [.address, .address]
  | .copyToFromConstant => [.address, .constant]
  | .copyToFromAddress => [.address, .pointer]
  | .copyIntoAddress => [.pointer, .address]
  | .copyAddressOfLabel => [.address, .label]
  | .add | .subtract | .multiply | .divide | .modulo | .compare => [.address, .address, .address]
  | .addConstant | .subtractConstant | .multiplyConstant | .divideConstant | .moduloConstant
  | .compareConstant => [.address, .constant, .address]
  | .jumpTo => [.label]
  | .branchIfEqual | .branchIfNotEqual => [.address, .address, .label]
  | .branchIfEqualConstant | .branchIfNotEqualConstant => [.address, .constant, .label]
  | .data | .breakRun | .halt => []

/-- The operand count (rule R61). -/
def Opcode.arity (o : Opcode) : Nat := o.kinds.length

/-- The length in cells, known from the opcode alone (rule R66). -/
def Opcode.length (o : Opcode) : Nat := 1 + o.arity

/-- `OPCODE_MAP⁻¹`: exact equality of whole integers (rule R64). -/
def Opcode.ofCode? (op : Int) : Option Opcode := Opcode.all.find? (fun o => o.code == op)

/-- The instruction of an opcode and its raw operands `raw1`, `raw2`, `raw3` (rule R14). -/
def Opcode.instr (raw1 raw2 raw3 : Int) : Opcode → Instr
  | .copyToFrom => .copyToFrom raw1 raw2
  | .copyToFromConstant => .copyToFromConstant raw1 raw2
  | .copyToFromAddress => .copyToFromAddress raw1 raw2
  | .copyIntoAddress => .copyIntoAddress raw1 raw2
  | .copyAddressOfLabel => .copyAddressOfLabel raw1 raw2
  | .add => .add raw1 raw2 raw3
  | .addConstant => .addConstant raw1 raw2 raw3
  | .subtract => .subtract raw1 raw2 raw3
  | .subtractConstant => .subtractConstant raw1 raw2 raw3
  | .multiply => .multiply raw1 raw2 raw3
  | .multiplyConstant => .multiplyConstant raw1 raw2 raw3
  | .divide => .divide raw1 raw2 raw3
  | .divideConstant => .divideConstant raw1 raw2 raw3
  | .modulo => .modulo raw1 raw2 raw3
  | .moduloConstant => .moduloConstant raw1 raw2 raw3
  | .compare => .compare raw1 raw2 raw3
  | .compareConstant => .compareConstant raw1 raw2 raw3
  | .jumpTo => .jumpTo raw1
  | .branchIfEqual => .branchIfEqual raw1 raw2 raw3
  | .branchIfEqualConstant => .branchIfEqualConstant raw1 raw2 raw3
  | .branchIfNotEqual => .branchIfNotEqual raw1 raw2 raw3
  | .branchIfNotEqualConstant => .branchIfNotEqualConstant raw1 raw2 raw3
  | .data => .data
  | .breakRun => .breakRun
  | .halt => .halt

/-- The instruction of an opcode and the list of its operand cells. -/
def Opcode.build (o : Opcode) (raws : List Int) : Instr :=
  o.instr (raws.getD 0 0) (raws.getD 1 0) (raws.getD 2 0)

/-- Why cells are no instruction. -/
inductive DecodeError where
  /-- There is no cell to decode. -/
  | noCell
  /-- The first cell holds no value of `OPCODE_MAP` (rule R65). -/
  | unknownOpcode (op : Int)
  /-- Fewer cells follow the opcode than it has operands (rule R61). -/
  | missingOperands (o : Opcode)
deriving DecidableEq, Repr

/-- Decode the instruction at the front of a list of cells, and give back the cells after it (rules R61, R64 and R66).
Total; every rejection has a name. -/
def decode : List Int → Except DecodeError (Instr × List Int)
  | [] => .error .noCell
  | op :: rest =>
    match Opcode.ofCode? op with
    | none => .error (.unknownOpcode op)
    | some o =>
      if rest.length < o.arity then .error (.missingOperands o)
      else .ok (o.build (rest.take o.arity), rest.drop o.arity)

/-- The mnemonic of an instruction (rule R62). -/
def Instr.opcode : Instr → Opcode
  | .copyToFrom _ _ => .copyToFrom
  | .copyToFromConstant _ _ => .copyToFromConstant
  | .copyToFromAddress _ _ => .copyToFromAddress
  | .copyIntoAddress _ _ => .copyIntoAddress
  | .copyAddressOfLabel _ _ => .copyAddressOfLabel
  | .add _ _ _ => .add
  | .addConstant _ _ _ => .addConstant
  | .subtract _ _ _ => .subtract
  | .subtractConstant _ _ _ => .subtractConstant
  | .multiply _ _ _ => .multiply
  | .multiplyConstant _ _ _ => .multiplyConstant
  | .divide _ _ _ => .divide
  | .divideConstant _ _ _ => .divideConstant
  | .modulo _ _ _ => .modulo
  | .moduloConstant _ _ _ => .moduloConstant
  | .compare _ _ _ => .compare
  | .compareConstant _ _ _ => .compareConstant
  | .jumpTo _ => .jumpTo
  | .branchIfEqual _ _ _ => .branchIfEqual
  | .branchIfEqualConstant _ _ _ => .branchIfEqualConstant
  | .branchIfNotEqual _ _ _ => .branchIfNotEqual
  | .branchIfNotEqualConstant _ _ _ => .branchIfNotEqualConstant
  | .data => .data
  | .breakRun => .breakRun
  | .halt => .halt

/-- The cells an instruction occupies, opcode first (rule R61). -/
def encode (i : Instr) : List Int := i.opcode.code :: i.operands

/-- The length of an instruction in cells (rule R66). -/
def Instr.length (i : Instr) : Nat := i.opcode.length

/-! The spec gives a cell no bits (rules R12 and R44). The host asks about instructions as numbers of bits, so a cell is
laid out, for that question only, as 64 bits in two's complement, first cell lowest: DESIGN CHOICE, log entry 7. -/

/-- The integer whose 64-bit two's complement pattern is `u`. -/
def cellOfBits (u : Nat) : Int := if u < 2 ^ 63 then (u : Int) else (u : Int) - 2 ^ 64

/-- The 64-bit two's complement pattern of a cell. -/
def bitsOfCell (v : Int) : Nat := (v % 2 ^ 64).toNat

/-- The first four cells of an instruction laid out as the number `w`: the longest instruction has four (rule R62). -/
def cellsOfWord (w : Nat) : List Int :=
  [cellOfBits (w % 2 ^ 64), cellOfBits (w / 2 ^ 64 % 2 ^ 64), cellOfBits (w / 2 ^ 128 % 2 ^ 64),
   cellOfBits (w / 2 ^ 192 % 2 ^ 64)]

/-- Cells laid out as one number, the first cell lowest. -/
def wordOfCells : List Int → Nat
  | [] => 0
  | v :: vs => bitsOfCell v + 2 ^ 64 * wordOfCells vs

/-- The instruction the decoder reads from the low `nbits` bits of `w`; `none` where it refuses, or where a cell would
lie outside the cell value domain. -/
def decodeTableWord (nbits w : Nat) : Option Instr :=
  match decode (cellsOfWord (w % 2 ^ nbits)) with
  | .ok (i, _) => if i.WellFormed then some i else none
  | .error _ => none

end Sys2Proof
end

