-- ==== Sys2Proof/Machine/State.lean ====
section
/-! DEFINITION. The architectural state of the block (rule R17) as plain data, the model's own fields beside it, and the
state at power-on (rules R37 and R150). -/

namespace Sys2Proof.Machine

/-- The memory array `M` (rule R39): the cells that do not hold `Memory.background`, as (address, value) pairs with
addresses strictly rising. A cell is one integer, not bytes (rule R44). -/
abbrev Memory := List (Nat × Int)

/-- What an address that is not listed holds: memory is zero at power-on (rule R150) and after every load (rule R151). -/
@[simp] abbrev Memory.background : Int := 0

/-- The six runtime errors (rule R131). -/
inductive RuntimeError where
  /-- An access outside `[0, TOTAL_MEMORY_SIZE)`; raised by `MemRead` and `MemWrite`. -/
  | outOfBounds
  /-- A value outside the domain; raised by the `MemWrite` of `add`, `subtract`, `multiply` and their constant forms. -/
  | invalidValue
  /-- A zero divisor of `divide` or `divide_constant`. -/
  | divisionByZero
  /-- A zero divisor of `modulo` or `modulo_constant`. -/
  | moduloByZero
  /-- An opcode cell that holds no value of `OPCODE_MAP`. -/
  | unknownOpcode
  /-- A fetch with `pc` outside program memory. -/
  | programCounterOutOfRange
deriving DecidableEq, Repr

/-- The record `(cause, at_pc, info)` of a runtime error (rule R25). -/
structure FaultRecord where
  cause : RuntimeError
  atPc : Int
  info : Int
deriving DecidableEq, Repr

/-- The input vector of a step (rule R34), with `KEYCODE_DEPTH = 3` key codes, `key0` the most recent (rule R48). -/
structure InputVector where
  key0 : Int
  key1 : Int
  key2 : Int
  mouseX : Int
  mouseY : Int
  mousePixel : Int
  mouseButton : Int
  random : Int
  time : Int
deriving DecidableEq, Repr

/-- The state of the block. The first five fields are the tuple `S` of rule R17; the others are the model's own: what the
host holds and a step or a command of the interface depends on (rules R10, R32, R34 and R38). -/
structure State where
  /-- The memory `M` (rule R39). -/
  mem : Memory
  /-- The program counter (rule R20). -/
  pc : Int
  /-- The running flag (rule R22). -/
  running : Bool
  /-- The halted flag (rule R23). -/
  halted : Bool
  /-- The runtime error that stopped the block, if any (rule R25). -/
  fault : Option FaultRecord
  /-- `INDIRECT_OPERANDS` (rule R10): a parameter of the machine; nothing writes it. -/
  indirectOperands : Bool
  /-- MODEL'S OWN: the input vector the host presents to the next step (rule R34). -/
  input : InputVector
  /-- MODEL'S OWN: how many input vectors the steps have consumed; selects the next free one. -/
  inputClock : Nat
  /-- MODEL'S OWN: `CYCLE_DELAY_MS` as last set by `setCycleDelay` (rule R32). -/
  cycleDelayMs : Int
deriving DecidableEq, Repr

/-- Outcomes in which the machine stops with a fault. A runtime error of the spec is none of these: its entry is described
(rule R132), so it is a next state. -/
inductive Fault where
  /-- Raised by `step` in a state whose flags match none of the four control states of rule R24 (for example running and
  halted at once). No run reaches such a state. Safe: the spec gives no behaviour there. -/
  | noControlState
deriving DecidableEq, Repr

/-- Outcomes in which a step is rejected and the state stays as it was. -/
inductive Refusal where
  /-- Raised by an arm of `exec` whose instruction has no meaning yet. Safe: the machine stops. No arm is one. -/
  | notModelled (mnemonic : String)
  /-- Raised by `step` in control state `halted`: rule R28 rejects the step. Safe: it is what the spec says. -/
  | stepWhileHalted
  /-- Raised by `step` in control state `faulted`: rules R28 and R134 reject the step. Safe: it is what the spec says. -/
  | stepWhileFaulted
  /-- Raised by `step` when the host presents an input value outside the cell value domain: a host that does so is
  outside the spec (rule R148). Safe: the model stops. -/
  | inputOutsideDomain
deriving DecidableEq, Repr

/-- The input vector of zeros: the one presented to the first step after power-on. DESIGN CHOICE, log entry 3. -/
def InputVector.zero : InputVector :=
  { key0 := 0, key1 := 0, key2 := 0, mouseX := 0, mouseY := 0, mousePixel := 0, mouseButton := 0, random := 0, time := 0 }

/-- The state at power-on, before any load (rules R37 and R150). The last three fields are the model's own (log entries 3
and 10), `indirectOperands` has the default of rule R10. -/
def State.reset : State :=
  { mem := []
    pc := Config.programStart
    running := false
    halted := false
    fault := none
    indirectOperands := false
    input := InputVector.zero
    inputClock := 0
    cycleDelayMs := 0 }

end Sys2Proof.Machine
end

