-- ==== Sys2Proof/Machine/Ops.lean ====
section
/-! DEFINITION. The named operations over memory, the program counter and the control state: the primitives of rule R13,
the entry into a fault (rule R132), the control state (rule R24) and the address map (rules R47 to R51). -/

namespace Sys2Proof.Machine

/-! ### Memory -/

/-- The content of cell `a` (rule R13, `M[a]`). -/
def Memory.read : Memory → Nat → Int
  | [], _ => Memory.background
  | (b, w) :: m, a => if a = b then w else Memory.read m a

/-- Memory with cell `a` holding `v` (rule R13, `M[a] <- v`); keeps the canonical form. -/
def Memory.write : Memory → Nat → Int → Memory
  | [], a, v => if v = Memory.background then [] else [(a, v)]
  | (b, w) :: m, a, v =>
    if a < b then (if v = Memory.background then (b, w) :: m else (a, v) :: (b, w) :: m)
    else if a = b then (if v = Memory.background then m else (a, v) :: m)
    else (b, w) :: Memory.write m a v

/-- Consecutive cells from `a` on. -/
def Memory.writeList : Memory → Nat → List Int → Memory
  | m, _, [] => m
  | m, a, v :: vs => Memory.writeList (Memory.write m a v) (a + 1) vs

/-- The contents of `n` consecutive cells from `a` on. -/
def Memory.readList (m : Memory) (a : Nat) : Nat → List Int
  | 0 => []
  | n + 1 => Memory.read m a :: Memory.readList m (a + 1) n

/-- The canonical form, and what rule R39 says of every cell: addresses strictly rise and lie in memory, no listed cell
holds what an unlisted one does, and every value lies in the domain. -/
abbrev Memory.wf (m : Memory) : Prop :=
  m.Pairwise (fun p q => p.1 < q.1) ∧
    ∀ p ∈ m, (p.1 : Int) < Config.totalMemorySize ∧ p.2 ≠ Memory.background ∧ InDomain p.2

/-! ### State updates -/

/-- Replace the memory. -/
def State.withMem (s : State) (m : Memory) : State := { s with mem := m }

/-- `pc <- target` (rule R13). -/
def State.withPc (s : State) (target : Int) : State := { s with pc := target }

/-- Write the two control flags. -/
def State.withFlags (s : State) (running halted : Bool) : State := { s with running := running, halted := halted }

/-- Write the fault record. -/
def State.withFault (s : State) (f : Option FaultRecord) : State := { s with fault := f }

/-- Replace what the host presents to the next step. -/
def State.withInput (s : State) (i : InputVector) (clock : Nat) : State := { s with input := i, inputClock := clock }

/-- The content of the cell at an integer address. -/
def State.cell (s : State) (a : Int) : Int := Memory.read s.mem a.toNat

/-- Store without a check (rule R13, `M[a] <- v`). -/
def State.store (s : State) (a v : Int) : State := s.withMem (Memory.write s.mem a.toNat v)

/-! ### Runtime errors and the fault state -/

/-- `raise E(info)`, before the block enters the fault (rule R13). -/
structure Raised where
  cause : RuntimeError
  info : Int
deriving DecidableEq, Repr

/-- The numeric code of a runtime error (rule R131). -/
def RuntimeError.code : RuntimeError → Nat
  | .outOfBounds => 1
  | .invalidValue => 2
  | .divisionByZero => 3
  | .moduloByZero => 4
  | .unknownOpcode => 5
  | .programCounterOutOfRange => 6

/-- Fault entry (rule R132): record the cause, `start` and the information, clear `running`; `halted`, memory and `pc`
keep what the step did before the raise. The block has no handler, no saved registers and no return (rules R130 and
R141): only a load leaves the fault state. -/
def enterFault (e : Raised) (start : Int) (s : State) : State :=
  { s with fault := some { cause := e.cause, atPc := start, info := e.info }, running := false }

/-- How an instruction ends: with its one effect, or in the fault state with the address of its opcode cell recorded. When
execution begins `pc` is `start + 1 + n` (rule R20), so `start` is `pc` less the instruction's length. -/
def settle (o : Opcode) (s : State) : Except Raised State → Host.Outcome State Fault Refusal
  | .ok t => .next t
  | .error e => .next (enterFault e (s.pc - o.length) s)

/-! ### Memory access with its checks -/

/-- An address inside memory (rule R41). -/
abbrev InBounds (a : Int) : Prop := 0 ≤ a ∧ a < Config.totalMemorySize

/-- `MemRead(a, 1)` (rule R41). -/
def memRead (s : State) (a : Int) : Except Raised Int :=
  if InBounds a then .ok (s.cell a) else .error { cause := .outOfBounds, info := a }

/-- `MemWrite(a, 1, v)` (rule R42): the address is checked before the value. -/
def memWrite (s : State) (a v : Int) : Except Raised State :=
  if InBounds a then
    if InDomain v then .ok (s.store a v) else .error { cause := .invalidValue, info := v }
  else .error { cause := .outOfBounds, info := a }

/-! ### Control state -/

/-- The four control states (rule R24). -/
inductive ControlState where
  | paused | running | halted | faulted
deriving DecidableEq, Repr

/-- The control state the flags determine; `none` for flags that match no row of the table of rule R24. -/
def controlState (s : State) : Option ControlState :=
  match s.running, s.halted, s.fault with
  | false, false, none => some .paused
  | true, false, none => some .running
  | false, true, none => some .halted
  | false, false, some _ => some .faulted
  | _, _, some _ => none
  | true, true, none => none

/-! ### The address map -/

/-- The regions of memory (rule R47). -/
inductive Region where
  | working | program | input | video | audio
deriving DecidableEq, Repr

/-- The region an address lies in (rule R47); `none` outside memory. Memory does not enforce regions. -/
def regionOf (a : Int) : Option Region :=
  if Config.workingStart ≤ a ∧ a < Config.workingEnd then some .working
  else if Config.programStart ≤ a ∧ a < Config.programEnd then some .program
  else if Config.inputStart ≤ a ∧ a < Config.inputEnd then some .input
  else if Config.videoStart ≤ a ∧ a < Config.videoEnd then some .video
  else if Config.audioStart ≤ a ∧ a < Config.audioEnd then some .audio
  else none

/-- An address instruction fetch may read (rule R74). -/
abbrev InProgram (a : Int) : Prop := Config.programStart ≤ a ∧ a < Config.programEnd

/-- The cell of the pixel in column `x` and row `y` (rule R49). -/
def videoCell (x y : Int) : Int := Config.videoStart + y * Config.videoWidth + x

/-- The three control cells of an audio channel (rule R50). -/
inductive AudioControl where
  | waveType | frequency | volume
deriving DecidableEq, Repr

/-- The cell of a control of audio channel `c` (rule R50). -/
def audioCell (c : Int) : AudioControl → Int
  | .waveType => Config.audioStart + 3 * c
  | .frequency => Config.audioStart + 3 * c + 1
  | .volume => Config.audioStart + 3 * c + 2

end Sys2Proof.Machine
end

