-- ==== Sys2Proof/Machine/Operands.lean ====
section
/-! DEFINITION. Operand resolution, one form per operand kind (rules R67 to R72). The fetch passes raw integers and the
instruction resolves them (rule R73). -/

namespace Sys2Proof.Machine

/-- A raw value that encodes an indirect operand when the option is on (rule R71). -/
abbrev InIndirectRange (raw : Int) : Prop := -Config.totalMemorySize ≤ raw ∧ raw ≤ -1

/-- `EA(raw)`, the effective address of an `address` operand (rules R68 and R71). The result is not bounds-checked. -/
def effectiveAddress (s : State) (raw : Int) : Except Raised Int :=
  if s.indirectOperands = true ∧ InIndirectRange raw then memRead s (-raw - 1) else .ok raw

/-- The address a `pointer` operand names: the content of the pointer cell, used as it is (rule R70). -/
def pointerTarget (s : State) (raw : Int) : Except Raised Int := memRead s raw

/-- The value of a `constant` operand: the raw cell itself (rule R69). -/
def constantValue (raw : Int) : Int := raw

/-- The value of a `label` operand: the absolute address itself, never dereferenced (rule R72). -/
def labelValue (raw : Int) : Int := raw

/-- The raw value that encodes "indirect through cell `n`" (rule R71). -/
def indirectRaw (n : Int) : Int := -(n + 1)

end Sys2Proof.Machine
end

