-- ==== Sys2Proof/Machine/Alu.lean ====
section
/-! DEFINITION. The integer operations of the arithmetic family (rule R105), and the shared shapes of the instructions that
read sources, compute and write one cell (rule R77). -/

namespace Sys2Proof.Machine

/-- `tdiv(a, b)`: the quotient rounded toward zero (rules R12 and R105). -/
def truncDiv (a b : Int) : Int := Int.tdiv a b

/-- `trem(a, b) = a - b * tdiv(a, b)` (rules R12 and R105). -/
def truncRem (a b : Int) : Int := a - b * truncDiv a b

/-- Phase E3 of `add`: the exact sum (rule R105). -/
def aluAdd (x y : Int) : Except Raised Int := .ok (x + y)

/-- Phase E3 of `subtract`: the exact difference, first operand minus second (rule R108). -/
def aluSubtract (x y : Int) : Except Raised Int := .ok (x - y)

/-- Phase E3 of `multiply`: the exact product (rule R105). -/
def aluMultiply (x y : Int) : Except Raised Int := .ok (x * y)

/-- Phase E3 of `divide` (rule R112). -/
def aluDivide (x y : Int) : Except Raised Int :=
  if y = 0 then .error { cause := .divisionByZero, info := x } else .ok (truncDiv x y)

/-- Phase E3 of `modulo` (rule R114). -/
def aluModulo (x y : Int) : Except Raised Int :=
  if y = 0 then .error { cause := .moduloByZero, info := x } else .ok (truncRem x y)

/-- Phases E1 to E4 of an instruction `a b result` with two address sources. -/
def computeAddresses (f : Int → Int → Except Raised Int) (a b result : Int) (s : State) : Except Raised State := do
  let pa ← effectiveAddress s a
  let pb ← effectiveAddress s b
  let pr ← effectiveAddress s result
  let x ← memRead s pa
  let y ← memRead s pb
  let v ← f x y
  memWrite s pr v

/-- Phases E1 to E4 of an instruction `a b result` whose second source is a constant. -/
def computeConstant (f : Int → Int → Except Raised Int) (a b result : Int) (s : State) : Except Raised State := do
  let pa ← effectiveAddress s a
  let pr ← effectiveAddress s result
  let x ← memRead s pa
  let v ← f x (constantValue b)
  memWrite s pr v

end Sys2Proof.Machine
end

