-- ==== Sys2Proof/Machine/Arithmetic.lean ====
section
/-! DEFINITION. The arithmetic family (41_arithmetic.md). -/

namespace Sys2Proof.Machine

/-- `add a b result` (rule R106). -/
def execAdd (a b result : Int) (s : State) : Host.Outcome State Fault Refusal :=
  settle .add s (computeAddresses aluAdd a b result s)

/-- `add_constant a b result` (rule R107). -/
def execAddConstant (a b result : Int) (s : State) : Host.Outcome State Fault Refusal :=
  settle .addConstant s (computeConstant aluAdd a b result s)

/-- `subtract a b result` (rule R108). -/
def execSubtract (a b result : Int) (s : State) : Host.Outcome State Fault Refusal :=
  settle .subtract s (computeAddresses aluSubtract a b result s)

/-- `subtract_constant a b result` (rule R109). -/
def execSubtractConstant (a b result : Int) (s : State) : Host.Outcome State Fault Refusal :=
  settle .subtractConstant s (computeConstant aluSubtract a b result s)

/-- `multiply a b result` (rule R110). -/
def execMultiply (a b result : Int) (s : State) : Host.Outcome State Fault Refusal :=
  settle .multiply s (computeAddresses aluMultiply a b result s)

/-- `multiply_constant a b result` (rule R111). -/
def execMultiplyConstant (a b result : Int) (s : State) : Host.Outcome State Fault Refusal :=
  settle .multiplyConstant s (computeConstant aluMultiply a b result s)

/-- `divide a b result` (rule R112). -/
def execDivide (a b result : Int) (s : State) : Host.Outcome State Fault Refusal :=
  settle .divide s (computeAddresses aluDivide a b result s)

/-- `divide_constant a b result` (rule R113). -/
def execDivideConstant (a b result : Int) (s : State) : Host.Outcome State Fault Refusal :=
  settle .divideConstant s (computeConstant aluDivide a b result s)

/-- `modulo a b result` (rule R114). -/
def execModulo (a b result : Int) (s : State) : Host.Outcome State Fault Refusal :=
  settle .modulo s (computeAddresses aluModulo a b result s)

/-- `modulo_constant a b result` (rule R115). -/
def execModuloConstant (a b result : Int) (s : State) : Host.Outcome State Fault Refusal :=
  settle .moduloConstant s (computeConstant aluModulo a b result s)

end Sys2Proof.Machine
end

