-- ==== Sys2Proof/Machine/Flags.lean ====
section
/-! DEFINITION. The block has no status flags (rule R19): a compare gives a value (rule R117), a branch tests two values
directly (rule R120), and the only flags are the control flags `running` and `halted` (rules R128 and R129). -/

namespace Sys2Proof.Machine

/-- The three-way compare law (rule R117). -/
def threeWay (x y : Int) : Int := if x < y then -1 else if x = y then 0 else 1

/-- The flag writes of `break` (rule R128): `running <- false`, `halted` unchanged. -/
def pauseFlags (s : State) : State := s.withFlags false s.halted

/-- The flag writes of `halt` (rule R129): `running <- false; halted <- true`. -/
def haltFlags (s : State) : State := s.withFlags false true

end Sys2Proof.Machine
end

