-- ==== Sys2Proof/Machine/Compare.lean ====
section
/-! DEFINITION. The compare family (42_compare.md). -/

namespace Sys2Proof.Machine

/-- Phase E3 of a compare (rule R117). -/
def aluCompare (x y : Int) : Except Raised Int := .ok (threeWay x y)

/-- `compare a b result` (rule R118). -/
def execCompare (a b result : Int) (s : State) : Host.Outcome State Fault Refusal :=
  settle .compare s (computeAddresses aluCompare a b result s)

/-- `compare_constant a b result` (rule R119). -/
def execCompareConstant (a b result : Int) (s : State) : Host.Outcome State Fault Refusal :=
  settle .compareConstant s (computeConstant aluCompare a b result s)

end Sys2Proof.Machine
end

