-- ==== Sys2Proof/Machine/Control.lean ====
section
/-! DEFINITION. The control-transfer family (43_control.md). The target is not checked when the transfer executes
(rule R120). -/

namespace Sys2Proof.Machine

/-- Phase E4 of a branch: the target when the test holds, else `pc` stays at the next instruction (rule R120). -/
def branchTo (taken : Bool) (label : Int) (s : State) : State := if taken then s.withPc (labelValue label) else s

/-- A branch `a b label` on the test `test` with two address sources. -/
def branchAddresses (test : Int → Int → Bool) (a b label : Int) (s : State) : Except Raised State := do
  let pa ← effectiveAddress s a
  let pb ← effectiveAddress s b
  let x ← memRead s pa
  let y ← memRead s pb
  .ok (branchTo (test x y) label s)

/-- A branch `a b label` on the test `test` whose second source is a constant. -/
def branchConstant (test : Int → Int → Bool) (a b label : Int) (s : State) : Except Raised State := do
  let pa ← effectiveAddress s a
  let x ← memRead s pa
  .ok (branchTo (test x (constantValue b)) label s)

/-- The test of `branch_if_equal` and its constant form (rules R122 and R123). -/
def testEqual (x y : Int) : Bool := x == y

/-- The test of `branch_if_not_equal` and its constant form (rules R124 and R125). -/
def testNotEqual (x y : Int) : Bool := x != y

/-- `jump_to label` (rule R121). -/
def execJumpTo (label : Int) (s : State) : Host.Outcome State Fault Refusal :=
  .next (s.withPc (labelValue label))

/-- `branch_if_equal a b label` (rule R122). -/
def execBranchIfEqual (a b label : Int) (s : State) : Host.Outcome State Fault Refusal :=
  settle .branchIfEqual s (branchAddresses testEqual a b label s)

/-- `branch_if_equal_constant a b label` (rule R123). -/
def execBranchIfEqualConstant (a b label : Int) (s : State) : Host.Outcome State Fault Refusal :=
  settle .branchIfEqualConstant s (branchConstant testEqual a b label s)

/-- `branch_if_not_equal a b label` (rule R124). -/
def execBranchIfNotEqual (a b label : Int) (s : State) : Host.Outcome State Fault Refusal :=
  settle .branchIfNotEqual s (branchAddresses testNotEqual a b label s)

/-- `branch_if_not_equal_constant a b label` (rule R125). -/
def execBranchIfNotEqualConstant (a b label : Int) (s : State) : Host.Outcome State Fault Refusal :=
  settle .branchIfNotEqualConstant s (branchConstant testNotEqual a b label s)

end Sys2Proof.Machine
end

