-- ==== Sys2Proof/Machine/Copy.lean ====
section
/-! DEFINITION. The copy family: the block's load/store unit (40_copy.md). -/

namespace Sys2Proof.Machine

/-- `copy_to_from destination source` (rule R100). -/
def execCopyToFrom (destination source : Int) (s : State) : Host.Outcome State Fault Refusal :=
  settle .copyToFrom s do
    let d ← effectiveAddress s destination
    let p ← effectiveAddress s source
    let v ← memRead s p
    memWrite s d v

/-- `copy_to_from_constant destination value` (rule R101). -/
def execCopyToFromConstant (destination value : Int) (s : State) : Host.Outcome State Fault Refusal :=
  settle .copyToFromConstant s do
    let d ← effectiveAddress s destination
    memWrite s d (constantValue value)

/-- `copy_to_from_address destination sourcePointer` (rule R102). -/
def execCopyToFromAddress (destination sourcePointer : Int) (s : State) : Host.Outcome State Fault Refusal :=
  settle .copyToFromAddress s do
    let d ← effectiveAddress s destination
    let t ← pointerTarget s sourcePointer
    let v ← memRead s t
    memWrite s d v

/-- `copy_into_address destinationPointer source` (rule R103). -/
def execCopyIntoAddress (destinationPointer source : Int) (s : State) : Host.Outcome State Fault Refusal :=
  settle .copyIntoAddress s do
    let p ← effectiveAddress s source
    let t ← pointerTarget s destinationPointer
    let v ← memRead s p
    memWrite s t v

/-- `copy_address_of_label destination label` (rule R104). -/
def execCopyAddressOfLabel (destination label : Int) (s : State) : Host.Outcome State Fault Refusal :=
  settle .copyAddressOfLabel s do
    let d ← effectiveAddress s destination
    memWrite s d (labelValue label)

end Sys2Proof.Machine
end

