-- ==== Sys2Proof/Machine/System.lean ====
section
/-! DEFINITION. The system family (44_system.md): none of these reads or writes memory or can raise an error (rule R126). -/

namespace Sys2Proof.Machine

/-- `data` executed as an opcode: no effect, `pc` has already passed its one cell (rule R127). -/
def execData (s : State) : Host.Outcome State Fault Refusal := .next s

/-- `break`: pause, resumable (rule R128). -/
def execBreak (s : State) : Host.Outcome State Fault Refusal := .next (pauseFlags s)

/-- `halt`: stop, terminal until a load (rule R129). -/
def execHalt (s : State) : Host.Outcome State Fault Refusal := .next (haltFlags s)

end Sys2Proof.Machine
end

