-- ==== Sys2Proof/Machine/Dispatch.lean ====
section
/-! DEFINITION. `Execute(ins, raws)` (rule R76): one arm per instruction. The state it acts on is the state when execution
begins: `pc` has already passed the instruction's cells (rule R20). -/

namespace Sys2Proof.Machine

/-- The dispatch of rule R76. -/
def exec (i : Instr) (s : State) : Host.Outcome State Fault Refusal :=
  match i with
  | .copyToFrom destination source => Sys2Proof.Machine.execCopyToFrom destination source s
  | .copyToFromConstant destination value => Sys2Proof.Machine.execCopyToFromConstant destination value s
  | .copyToFromAddress destination sourcePointer => Sys2Proof.Machine.execCopyToFromAddress destination sourcePointer s
  | .copyIntoAddress destinationPointer source => Sys2Proof.Machine.execCopyIntoAddress destinationPointer source s
  | .copyAddressOfLabel destination label => Sys2Proof.Machine.execCopyAddressOfLabel destination label s
  | .add a b result => Sys2Proof.Machine.execAdd a b result s
  | .addConstant a b result => Sys2Proof.Machine.execAddConstant a b result s
  | .subtract a b result => Sys2Proof.Machine.execSubtract a b result s
  | .subtractConstant a b result => Sys2Proof.Machine.execSubtractConstant a b result s
  | .multiply a b result => Sys2Proof.Machine.execMultiply a b result s
  | .multiplyConstant a b result => Sys2Proof.Machine.execMultiplyConstant a b result s
  | .divide a b result => Sys2Proof.Machine.execDivide a b result s
  | .divideConstant a b result => Sys2Proof.Machine.execDivideConstant a b result s
  | .modulo a b result => Sys2Proof.Machine.execModulo a b result s
  | .moduloConstant a b result => Sys2Proof.Machine.execModuloConstant a b result s
  | .compare a b result => Sys2Proof.Machine.execCompare a b result s
  | .compareConstant a b result => Sys2Proof.Machine.execCompareConstant a b result s
  | .jumpTo label => Sys2Proof.Machine.execJumpTo label s
  | .branchIfEqual a b label => Sys2Proof.Machine.execBranchIfEqual a b label s
  | .branchIfEqualConstant a b label => Sys2Proof.Machine.execBranchIfEqualConstant a b label s
  | .branchIfNotEqual a b label => Sys2Proof.Machine.execBranchIfNotEqual a b label s
  | .branchIfNotEqualConstant a b label => Sys2Proof.Machine.execBranchIfNotEqualConstant a b label s
  | .data => Sys2Proof.Machine.execData s
  | .breakRun => Sys2Proof.Machine.execBreak s
  | .halt => Sys2Proof.Machine.execHalt s

end Sys2Proof.Machine
end

