-- ==== Sys2Proof/Machine/Fetch.lean ====
section
/-! DEFINITION. The input refresh and the fetch of one instruction: steps (1) to (4) of rule R75. -/

namespace Sys2Proof.Machine

/-! ### Input refresh -/

/-- Every value of an input vector, in the order of the input cells (rule R48). -/
def InputVector.values (i : InputVector) : List Int :=
  [i.key0, i.key1, i.key2, i.mouseX, i.mouseY, i.mousePixel, i.mouseButton, i.random, i.time]

/-- The duty of the host: every input value lies in the cell value domain (rules R34 and R148). -/
abbrev InputVector.InDomain (i : InputVector) : Prop := ∀ v ∈ i.values, Sys2Proof.InDomain v

/-- The value the host puts on port `port` for the `n`-th vector: free inside the domain (rule R34). -/
def hostPort (n port : Nat) : Int := valueMin + ((Config.hostValue n port).val : Int)

/-- The `n`-th input vector the host supplies (rule R34): every port free, and free again for each step (rule R48). -/
def hostInput (n : Nat) : InputVector :=
  { key0 := hostPort n 0, key1 := hostPort n 1, key2 := hostPort n 2, mouseX := hostPort n 3, mouseY := hostPort n 4,
    mousePixel := hostPort n 5, mouseButton := hostPort n 6, random := hostPort n 7, time := hostPort n 8 }

/-- An input cell: written by the refresh of every step (rule R48), `KEYCODE_0` to `CURRENT_TIME`. -/
abbrev InputCell (a : Int) : Prop := Config.inputStart ≤ a ∧ a < Config.inputStart + Config.keycodeDepth + 6

/-- Step (1) of rule R75: copy the presented input vector into the input cells. The host's next vector then takes its
place, since each step has its own (rule R34). -/
def refreshInput (s : State) : State :=
  (s.withMem (Memory.writeList s.mem Config.inputStart.toNat s.input.values)).withInput (hostInput s.inputClock)
    (s.inputClock + 1)

/-! ### Fetch -/

/-- `Fetch()` (rule R74): the check precedes the read, and `pc` advances only when it passes. -/
def fetchCell (s : State) : Except Raised (Int × State) :=
  if InProgram s.pc then .ok (s.cell s.pc, s.withPc (s.pc + 1))
  else .error { cause := .programCounterOutOfRange, info := s.pc }

/-- `n` fetches in a row. A failing fetch leaves the state the completed ones reached (rule R78). -/
def fetchCells : Nat → State → Except (Raised × State) (List Int × State)
  | 0, s => .ok ([], s)
  | n + 1, s =>
    match fetchCell s with
    | .error e => .error (e, s)
    | .ok (v, t) =>
      match fetchCells n t with
      | .error e => .error e
      | .ok (vs, u) => .ok (v :: vs, u)

/-- Steps (2) to (4) of rule R75: fetch the opcode, decode it, fetch as many operands as it has. -/
def fetchInstr (s : State) : Except (Raised × State) (Instr × State) :=
  match fetchCell s with
  | .error e => .error (e, s)
  | .ok (op, t) =>
    match Opcode.ofCode? op with
    | none => .error ({ cause := .unknownOpcode, info := op }, t)
    | some o =>
      match fetchCells o.arity t with
      | .error e => .error e
      | .ok (raws, u) => .ok (o.build raws, u)

end Sys2Proof.Machine
end

