-- ==== Sys2Proof/Machine/Cycle.lean ====
section
/-! DEFINITION. One fetch-decode-execute cycle (rule R75), when the block admits one (rule R28), and the layout of an
instruction where the next cycle fetches it. -/

namespace Sys2Proof.Machine

/-- `Step(inputs)` of rule R75, for the input vector the state presents. A raise before execution enters the fault with
`start`, the `pc` when the step began (rule R132), keeping what the step did before it (rule R78). -/
def cycle (s : State) : Host.Outcome State Fault Refusal :=
  match fetchInstr (refreshInput s) with
  | .error (e, t) => .next (enterFault e s.pc t)
  | .ok (i, t) => exec i t

/-- A step is performed in `paused` and in `running`, and rejected in `halted` and in `faulted` (rule R28). Flags that give
no control state, and an input vector outside the domain, stop the model (log entries 5 and 6). -/
def admitCycle (s : State) : Host.Outcome State Fault Refusal :=
  match controlState s with
  | none => .fault .noControlState
  | some .halted => .refused .stepWhileHalted
  | some .faulted => .refused .stepWhileFaulted
  | some .paused => if s.input.InDomain then cycle s else .refused .inputOutsideDomain
  | some .running => if s.input.InDomain then cycle s else .refused .inputOutsideDomain

/-- Store cells from `pc` on, where the next cycle fetches; a list with a value no cell can hold changes nothing. -/
def placeCells (s : State) (cells : List Int) : State :=
  if ∀ v ∈ cells, InDomain v then s.withMem (Memory.writeList s.mem s.pc.toNat cells) else s

end Sys2Proof.Machine
end

