-- ==== Sys2Proof/Machine/Step.lean ====
section
/-! DEFINITION. The step of the machine: one cycle where the block admits one. -/

namespace Sys2Proof.Machine

/-- One step (rules R28 and R75). -/
def step (s : State) : Host.Outcome State Fault Refusal := admitCycle s

/-- `s` with the instruction laid out in the low `nbits` bits of `w` (four 64-bit cells, log entry 7) stored at `pc`. -/
def State.withFetchWord (s : State) (nbits w : Nat) : State := placeCells s (cellsOfWord (w % 2 ^ nbits))

end Sys2Proof.Machine
end

