-- ==== Sys2Proof/Machine/Assembler.lean ====
section
/-! DEFINITION. The assembler (30_encoding.md section 4): a pure function from source text to the image that load writes
into program memory, and the disassembler (rule R98). It is in scope by rule R3. -/

namespace Sys2Proof.Machine

/-- A token of a source line: a run of characters without white space (rule R79). -/
abbrev Token := List Char

/-- The assembly errors (rule R136) with what each report carries (rule R96). -/
inductive AsmError where
  /-- A malformed line: its first token, the expected and the actual operand count where the error is an arity error, and
  the line. -/
  | syntaxError (mnemonic : Token) (counts : Option (Nat × Nat)) (line : Nat)
  /-- A label operand names no declared label. -/
  | unknownLabel (name : Token) (line : Nat)
  /-- A name operand names no define on an earlier line. -/
  | undefinedConstant (name : Token) (line : Nat)
  /-- A label is declared twice. -/
  | duplicateLabel (name : Token) (line : Nat)
  /-- A name is defined twice. -/
  | duplicateDefine (name : Token) (line : Nat)
  /-- The image does not fit in program memory. -/
  | programTooLarge (length : Nat)
deriving DecidableEq, Repr

/-- The numeric code of an assembly error (rule R136). -/
def AsmError.code : AsmError → Nat
  | .syntaxError _ _ _ => 16
  | .unknownLabel _ _ => 17
  | .undefinedConstant _ _ => 18
  | .duplicateLabel _ _ => 19
  | .duplicateDefine _ _ => 20
  | .programTooLarge _ => 21

/-! ### Lines and tokens -/

/-- The white-space characters that separate tokens (rule R79). Space, tab and carriage return are the spec's; the others
are PRESUMED, log entry 15. A line feed never reaches this test. -/
def isSpace (c : Char) : Bool :=
  let n := c.toNat
  n = 0x20 || (0x09 ≤ n && n ≤ 0x0D) || n = 0x85 || n = 0xA0 || n = 0x1680 || (0x2000 ≤ n && n ≤ 0x200A) ||
    n = 0x2028 || n = 0x2029 || n = 0x202F || n = 0x205F || n = 0x3000 || n = 0xFEFF

/-- The pieces of a text between the characters that `sep` accepts. -/
def splitOn (sep : Char → Bool) : List Char → List (List Char)
  | [] => [[]]
  | c :: cs =>
    match splitOn sep cs with
    | [] => [[c]]
    | l :: ls => if sep c then [] :: l :: ls else (c :: l) :: ls

/-- The lines of a source text (rule R79). -/
def sourceLines (text : List Char) : List (List Char) := splitOn (fun c => c = '\n') text

/-- The tokens of a line: everything after a `;` is dropped, the rest is split on white space, empty tokens are discarded
(rule R79). -/
def lineTokens (line : List Char) : List Token :=
  (splitOn isSpace (line.takeWhile (fun c => c ≠ ';'))).filter (fun t => !t.isEmpty)

/-! ### Literals and operands -/

/-- A decimal digit. -/
def isDecimal (c : Char) : Bool := 48 ≤ c.toNat && c.toNat ≤ 57

/-- The number that decimal digits spell. -/
def decimalValue (ds : List Char) : Int := ds.foldl (fun n c => 10 * n + ((c.toNat : Int) - 48)) 0

/-- One or more decimal digits. -/
def isDigits (ds : List Char) : Bool := !ds.isEmpty && ds.all isDecimal

/-- The value of a token of the form `[+-]?[0-9]+`, whatever its size (rule R85). -/
def literalValue? : Token → Option Int
  | '+' :: ds => if isDigits ds then some (decimalValue ds) else none
  | '-' :: ds => if isDigits ds then some (-decimalValue ds) else none
  | ds => if isDigits ds then some (decimalValue ds) else none

/-- A token that begins with `*` (rule R84). -/
def isStarred (t : Token) : Bool := t.head? == some '*'

/-- An integer, or a name to be resolved against the Define Table (rule R84, cases 3 and 4). -/
inductive ValueRef where
  | literal (v : Int)
  | name (n : Token)
deriving DecidableEq, Repr

/-- A classified operand of an instruction line (rule R84). -/
inductive AsmOperand where
  /-- An integer or a name. -/
  | value (v : ValueRef)
  /-- `*x` (rule R86). -/
  | indirect (x : ValueRef)
  /-- A label name. -/
  | label (n : Token)
deriving DecidableEq, Repr

/-- Cases 3 and 4 of rule R84 on a token that may not begin with `*`; `none` is a `SyntaxError`, also for a literal outside
the domain (rule R85). -/
def classifyValue (t : Token) : Option ValueRef :=
  match literalValue? t with
  | some v => if InDomain v then some (.literal v) else none
  | none => if isStarred t || t.isEmpty then none else some (.name t)

/-- Operand classification (rules R84 and R86); `none` is a `SyntaxError`. A label operand that begins with `*` is kept as a
label name, as case 1 of rule R84 says; rule R86 has a sentence that would make it a `SyntaxError`: DESIGN CHOICE, log
entry 22. -/
def classifyOperand (indirectOption : Bool) (k : OperandKind) (t : Token) : Option AsmOperand :=
  match k, t with
  | .label, t => some (.label t)
  | .address, '*' :: x => if indirectOption then (classifyValue x).map .indirect else none
  | _, t => (classifyValue t).map .value

/-- Every operand of an instruction line; `none` if one of them is a `SyntaxError` or the counts differ. -/
def classifyOperands (indirectOption : Bool) : List OperandKind → List Token → Option (List AsmOperand)
  | [], [] => some []
  | k :: ks, t :: ts =>
    match classifyOperand indirectOption k t, classifyOperands indirectOption ks ts with
    | some o, some os => some (o :: os)
    | _, _ => none
  | _, _ => none

/-- Every operand of a `data` line (rule R82); `none` if one of them is a `SyntaxError`. -/
def classifyValues : List Token → Option (List ValueRef)
  | [] => some []
  | t :: ts =>
    match classifyValue t, classifyValues ts with
    | some v, some vs => some (v :: vs)
    | _, _ => none

/-! ### Parse (rules R79 to R88) -/

/-- What a line declares or emits. -/
inductive AsmBody where
  /-- `name:` (rule R80). -/
  | label (name : Token)
  /-- `define name value` (rule R81). -/
  | define (name : Token) (value : ValueRef)
  /-- `data v1 v2 ...` (rule R82). -/
  | data (values : List ValueRef)
  /-- An instruction line (rule R83). -/
  | instr (o : Opcode) (operands : List AsmOperand)
deriving DecidableEq, Repr

/-- A parsed record (rule R79): its body and its source line, numbered from 1. -/
structure AsmRecord where
  body : AsmBody
  line : Nat
deriving DecidableEq, Repr

/-- The mnemonic a token spells exactly, `data` apart (rule R83). -/
def mnemonicOf? (t : Token) : Option Opcode :=
  Opcode.all.find? (fun o => o != .data && o.name.toList == t)

/-- Parse the tokens of one line; `none` for a blank line (rules R79 to R87). The operand count is checked before the
operands are classified (log entry 16). -/
def parseTokens (indirectOption : Bool) (line : Nat) : List Token → Except AsmError (Option AsmRecord)
  | [] => .ok none
  | t :: ops =>
    if t.getLast? = some ':' then
      if t.dropLast.isEmpty || !ops.isEmpty then .error (.syntaxError t none line)
      else .ok (some { body := .label t.dropLast, line := line })
    else if t = "define".toList then
      match ops with
      | [n, v] =>
        if (literalValue? n).isSome || isStarred n then .error (.syntaxError t none line)
        else
          match classifyValue v with
          | none => .error (.syntaxError t none line)
          | some x => .ok (some { body := .define n x, line := line })
      | _ => .error (.syntaxError t (some (2, ops.length)) line)
    else if t = "data".toList then
      match classifyValues ops with
      | none => .error (.syntaxError t none line)
      | some vs => .ok (some { body := .data vs, line := line })
    else
      match mnemonicOf? t with
      | none => .error (.syntaxError t none line)
      | some o =>
        if ops.length ≠ o.arity then .error (.syntaxError t (some (o.arity, ops.length)) line)
        else
          match classifyOperands indirectOption o.kinds ops with
          | none => .error (.syntaxError t none line)
          | some os => .ok (some { body := .instr o os, line := line })

/-- Parse lines in order, the first of them numbered `line`; the first error ends the parse (rule R93). -/
def parseLines (indirectOption : Bool) (line : Nat) : List (List Char) → Except AsmError (List AsmRecord)
  | [] => .ok []
  | l :: ls =>
    match parseTokens indirectOption line (lineTokens l) with
    | .error e => .error e
    | .ok r =>
      match parseLines indirectOption (line + 1) ls with
      | .error e => .error e
      | .ok rs => .ok (r.toList ++ rs)

/-- The record `(halt, [])` that is always appended (rule R88). It has no source line and no error can name it. -/
def trailingHalt : AsmRecord := { body := .instr .halt [], line := 0 }

/-- The records of a source text, the appended halt included. -/
def parse (indirectOption : Bool) (text : List Char) : Except AsmError (List AsmRecord) :=
  match parseLines indirectOption 1 (sourceLines text) with
  | .error e => .error e
  | .ok rs => .ok (rs ++ [trailingHalt])

/-! ### Layout and emit (rules R89 to R92) -/

/-- The Label Table or the Define Table: names with their integers. -/
abbrev NameTable := List (Token × Int)

/-- The integer of a name. -/
def lookupName (table : NameTable) (n : Token) : Option Int := (table.find? (fun p => p.1 == n)).map Prod.snd

/-- The cells a record occupies in the image (rules R89 and R97). -/
def AsmBody.size : AsmBody → Nat
  | .label _ => 0
  | .define _ _ => 0
  | .data vs => vs.length
  | .instr o _ => 1 + o.arity

/-- The layout pass (rule R89): the Label Table, or the first duplicate. -/
def layout (addr : Int) (labels : NameTable) : List AsmRecord → Except AsmError NameTable
  | [] => .ok labels
  | r :: rs =>
    match r.body with
    | .label n =>
      match lookupName labels n with
      | some _ => .error (.duplicateLabel n r.line)
      | none => layout addr ((n, addr) :: labels) rs
    | b => layout (addr + b.size) labels rs

/-- `resolve(v, line)` (rule R90). -/
def resolveValue (defines : NameTable) (line : Nat) : ValueRef → Except AsmError Int
  | .literal v => .ok v
  | .name n =>
    match lookupName defines n with
    | some v => .ok v
    | none => .error (.undefinedConstant n line)

/-- The values of a `data` record (rule R91). -/
def emitValues (defines : NameTable) (line : Nat) : List ValueRef → Except AsmError (List Int)
  | [] => .ok []
  | v :: vs => do
    let x ← resolveValue defines line v
    let xs ← emitValues defines line vs
    .ok (x :: xs)

/-- The cell of one operand (rule R91) with the checks of rule R86: `n` of `*x` is an address, and under the option a direct
address operand may not look indirect. -/
def emitOperand (indirectOption : Bool) (labels defines : NameTable) (mnemonic : Token) (line : Nat) (k : OperandKind) :
    AsmOperand → Except AsmError Int
  | .label n =>
    match lookupName labels n with
    | some a => .ok a
    | none => .error (.unknownLabel n line)
  | .indirect x => do
    let n ← resolveValue defines line x
    if InBounds n then .ok (indirectRaw n) else .error (.syntaxError mnemonic none line)
  | .value v => do
    let x ← resolveValue defines line v
    if indirectOption = true ∧ k = .address ∧ InIndirectRange x then .error (.syntaxError mnemonic none line) else .ok x

/-- The operand cells of an instruction record, in operand order (rule R91). -/
def emitOperands (indirectOption : Bool) (labels defines : NameTable) (mnemonic : Token) (line : Nat) :
    List OperandKind → List AsmOperand → Except AsmError (List Int)
  | k :: ks, o :: os => do
    let x ← emitOperand indirectOption labels defines mnemonic line k o
    let xs ← emitOperands indirectOption labels defines mnemonic line ks os
    .ok (x :: xs)
  | _, _ => .ok []

/-- The emit pass (rules R90 and R91): the cells of the records in order, or the first error. -/
def emit (indirectOption : Bool) (labels : NameTable) : NameTable → List AsmRecord → Except AsmError (List Int)
  | _, [] => .ok []
  | defines, r :: rs =>
    match r.body with
    | .label _ => emit indirectOption labels defines rs
    | .define n v =>
      match lookupName defines n with
      | some _ => .error (.duplicateDefine n r.line)
      | none => do
        let x ← resolveValue defines r.line v
        emit indirectOption labels ((n, x) :: defines) rs
    | .data vs => do
      let cells ← emitValues defines r.line vs
      let image ← emit indirectOption labels defines rs
      .ok (cells ++ image)
    | .instr o os => do
      let cells ← emitOperands indirectOption labels defines o.name.toList r.line o.kinds os
      let image ← emit indirectOption labels defines rs
      .ok (o.code :: cells ++ image)

/-- `assemble(sourceText)`: parse, layout, emit, then the size check (rules R92 and R93). -/
def assemble (indirectOption : Bool) (sourceText : String) : Except AsmError (List Int) := do
  let records ← parse indirectOption sourceText.toList
  let labels ← layout Config.programStart [] records
  let image ← emit indirectOption labels [] records
  if image.length ≤ Config.programSize then .ok image else .error (.programTooLarge image.length)

/-! ### Disassembly -/

/-- The mnemonic at address `a` and its operand cells (rule R98); `none` where the cell holds no opcode. Operand cells past
the end of memory, of which rule R98 says nothing, are given as 0: DESIGN CHOICE, log entry 23. -/
def disassemble (m : Memory) (a : Nat) : Option (String × List Int) :=
  (Opcode.ofCode? (Memory.read m a)).map fun o => (o.name, Memory.readList m (a + 1) o.arity)

end Sys2Proof.Machine
end

