-- ==== Sys2Proof/Machine/Commands.lean ====
section
/-! DEFINITION. The host interface of the block (rules R26 to R36), load (rule R151) and the run loop (rules R155 to
R157). -/

namespace Sys2Proof.Machine

/-- The commands of the block interface (rule R26). -/
inductive Command where
  | loadAndReset (sourceText : String)
  | stepOnce (inputs : InputVector)
  | run
  | stop
  | setCycleDelay (ms : Int)
  | readMemory (a : Int)
deriving DecidableEq, Repr

/-- What the block tells the host: the reply to a command or to a turn of the run loop, and the error report (rule R26). -/
inductive Reply where
  /-- The command was taken, or it changes nothing in this control state (rules R29 and R31). -/
  | done
  /-- The step was rejected (rule R28). -/
  | rejected
  /-- The content of the cell that `readMemory` asked for (rule R33). -/
  | value (v : Int)
  /-- `readMemory` asked for an address outside memory: no fault of the block (rules R33 and R138). -/
  | readOutOfBounds (a : Int)
  /-- The step raised a runtime error (rule R132). -/
  | runtimeError (cause : RuntimeError) (info : Int)
  /-- The assembly failed (rule R137). -/
  | assemblyError (e : AsmError)
deriving DecidableEq, Repr

/-- `Load(image)` (rule R151): memory zero but for the image, `pc` at the program base, the flags and `fault` cleared. -/
def load (image : List Int) (s : State) : State :=
  { s with
    mem := Memory.writeList [] Config.programStart.toNat image
    pc := Config.programStart
    running := false
    halted := false
    fault := none }

/-- `loadAndReset(sourceText)` (rule R27): an assembly error leaves the state as it was (rule R137). -/
def loadAndReset (sourceText : String) (s : State) : State × Reply :=
  match assemble s.indirectOperands sourceText with
  | .error e => (s, .assemblyError e)
  | .ok image => (load image s, .done)

/-- What a step that ended in state `t` reports: its runtime error, if it raised one (rule R132). -/
def stepReply (t : State) : Reply :=
  match t.fault with
  | some f => .runtimeError f.cause f.info
  | none => .done

/-- `stepOnce(inputs)` (rule R28): one step with the given input vector; a rejected step changes nothing. -/
def stepOnce (inputs : InputVector) (s : State) : State × Reply :=
  match step { s with input := inputs } with
  | .next t => (t, stepReply t)
  | .fault _ => (s, .rejected)
  | .refused _ => (s, .rejected)

/-- `run()` acts only in `paused` (rule R29). -/
def runCommand (s : State) : State :=
  if controlState s = some .paused then { s with running := true } else s

/-- `stop()` acts only in `running` (rule R31). -/
def stopCommand (s : State) : State :=
  if controlState s = some .running then { s with running := false } else s

/-- `readMemory(a)` (rule R33). -/
def readMemory (a : Int) (s : State) : Reply :=
  match memRead s a with
  | .ok v => .value v
  | .error _ => .readOutOfBounds a

/-- One command, an indivisible transaction (rules R26 and R30). -/
def command (c : Command) (s : State) : State × Reply :=
  match c with
  | .loadAndReset text => loadAndReset text s
  | .stepOnce inputs => stepOnce inputs s
  | .run => (runCommand s, .done)
  | .stop => (stopCommand s, .done)
  | .setCycleDelay ms => ({ s with cycleDelayMs := ms }, .done)
  | .readMemory a => (s, readMemory a s)

/-- The status outputs (rule R35): control state, `pc` and `fault`. -/
def status (s : State) : Option ControlState × Int × Option FaultRecord := (controlState s, s.pc, s.fault)

/-! ### The run loop -/

/-- One turn of the run loop (rule R156): `running` is tested before every step. The step is that of `stepOnce` (rule R28)
with the input vector the host presents, and reports a runtime error to the host as that does (rule R132). -/
def loopStep (s : State) : State × Reply :=
  if s.running = true then stepOnce s.input s else (s, .done)

/-- The run loop under fuel (rules R156 and R159), with what its turns report, oldest first: it issues no step once `running`
is false. -/
def runLoop : Nat → State → State × List Reply
  | 0, s => (s, [])
  | n + 1, s =>
    if s.running = true then
      ((runLoop n (loopStep s).1).1, (loopStep s).2 :: (runLoop n (loopStep s).1).2)
    else (s, [])

/-- A full-speed batch (rule R155); its length is OPEN (rule R11). -/
def runBatch (s : State) : State × List Reply := runLoop Config.cyclesPerBatch s

/-- What can happen to the block: a command, a turn of the run loop, or the host presenting another input vector for the
next turn (rule R156). A `stop` may stand between any two turns (rule R157). -/
inductive Event where
  | command (c : Command)
  | loopTurn
  | present (inputs : InputVector)
deriving DecidableEq, Repr

/-- The state after an event, and what the block tells the host. -/
def applyEvent (e : Event) (s : State) : State × Reply :=
  match e with
  | .command c => command c s
  | .loopTurn => loopStep s
  | .present inputs => ({ s with input := inputs }, .done)

/-- The state after a sequence of events, and what the block told the host, oldest first: commands are serialised
(rule R30). -/
def applyEvents : List Event → State → State × List Reply
  | [], s => (s, [])
  | e :: es, s => ((applyEvents es (applyEvent e s).1).1, (applyEvent e s).2 :: (applyEvents es (applyEvent e s).1).2)

end Sys2Proof.Machine
end

