-- ==== Sys2Proof/Safety.lean ====
section
/-! DEFINITION. The terms claims about the machine are stated in: the invariant, what an outcome left unchanged, and how an
instruction can end. -/

namespace Sys2Proof.Machine

/-! ### The invariant -/

/-- The invariants of the control state (rule R24): never running and halted, and a fault excludes both. -/
def LegalFlags (s : State) : Prop :=
  ¬(s.running = true ∧ s.halted = true) ∧ (s.fault ≠ none → s.running = false ∧ s.halted = false)

/-- What every step and every command keeps: memory in its canonical form with every cell in the domain (rule R39), `pc` in
the domain (rule R20), the legal flags (rule R24), and a presented input vector in the domain (rule R34). -/
def MachineInv (s : State) : Prop := Memory.wf s.mem ∧ InDomain s.pc ∧ LegalFlags s ∧ s.input.InDomain

/-- A host that keeps its first duty: every input value it supplies lies in the domain (rule R148). -/
def Event.Conforms : Event → Prop
  | .command (.stepOnce inputs) => inputs.InDomain
  | .present inputs => inputs.InDomain
  | .command (.loadAndReset _) => True
  | .command .run => True
  | .command .stop => True
  | .command (.setCycleDelay _) => True
  | .command (.readMemory _) => True
  | .loopTurn => True

/-- A control state in which a step is performed (rule R28), with the host's duty kept (rule R148). -/
def StepAdmitted (s : State) : Prop :=
  (controlState s = some .paused ∨ controlState s = some .running) ∧ s.input.InDomain

/-! ### What is unchanged -/

/-- Every cell reads as before. -/
def SameMemory (s t : State) : Prop := ∀ a : Nat, Memory.read t.mem a = Memory.read s.mem a

/-- Every cell but the one at `a` reads as before. -/
def SameMemoryBut (s t : State) (a : Int) : Prop := ∀ b : Nat, (b : Int) ≠ a → Memory.read t.mem b = Memory.read s.mem b

/-- The control flags and the fault record are as before. -/
def SameControl (s t : State) : Prop := t.running = s.running ∧ t.halted = s.halted ∧ t.fault = s.fault

/-- The model's own fields are as before. -/
def SameOwn (s t : State) : Prop :=
  t.indirectOperands = s.indirectOperands ∧ t.input = s.input ∧ t.inputClock = s.inputClock ∧
    t.cycleDelayMs = s.cycleDelayMs

/-- The tuple `S` of rule R17 is as before, cell by cell. -/
def SameArchitecture (s t : State) : Prop := SameMemory s t ∧ t.pc = s.pc ∧ SameControl s t

/-! ### How an instruction ends -/

/-- It completes by storing `v` in the cell at `a`, and changes nothing else. -/
def EndsInStore (s : State) (a v : Int) (r : Host.Outcome State Fault Refusal) : Prop :=
  ∃ t, r = .next t ∧ t.cell a = v ∧ SameMemoryBut s t a ∧ t.pc = s.pc ∧ SameControl s t ∧ SameOwn s t

/-- It completes with `pc` at `target`, and changes nothing else. -/
def EndsAt (s : State) (target : Int) (r : Host.Outcome State Fault Refusal) : Prop :=
  ∃ t, r = .next t ∧ t.pc = target ∧ SameMemory s t ∧ SameControl s t ∧ SameOwn s t

/-- It ends in the fault state of rule R132 with the address of its opcode cell recorded, and changes nothing else. -/
def EndsInFault (o : Opcode) (s : State) (cause : RuntimeError) (info : Int)
    (r : Host.Outcome State Fault Refusal) : Prop :=
  ∃ t, r = .next t ∧ t.fault = some { cause := cause, atPc := s.pc - o.length, info := info } ∧ t.running = false ∧
    t.halted = s.halted ∧ SameMemory s t ∧ t.pc = s.pc ∧ SameOwn s t

/-- A step ends in the fault state before its instruction executes: the input refresh has happened, `pc` is at `pcAfter`,
and nothing else has changed (rules R78 and R133). -/
def StepFaults (s : State) (cause : RuntimeError) (info pcAfter : Int) : Prop :=
  ∃ t, step s = .next t ∧ t.fault = some { cause := cause, atPc := s.pc, info := info } ∧ t.running = false ∧
    t.halted = s.halted ∧ t.pc = pcAfter ∧ SameMemory (refreshInput s) t ∧ SameOwn (refreshInput s) t

/-! ### Where an instruction stores -/

/-- The address phase E4 of an instruction stores to (rule R77), as its meaning computes it; `none` for a form that stores
nothing or whose address does not resolve. -/
def storeAddress (i : Instr) (s : State) : Option Int :=
  match i with
  | .copyToFrom d _ | .copyToFromConstant d _ | .copyToFromAddress d _ | .copyAddressOfLabel d _ =>
    (effectiveAddress s d).toOption
  | .copyIntoAddress p _ => (pointerTarget s p).toOption
  | .add _ _ r | .addConstant _ _ r | .subtract _ _ r | .subtractConstant _ _ r | .multiply _ _ r
  | .multiplyConstant _ _ r | .divide _ _ r | .divideConstant _ _ r | .modulo _ _ r | .moduloConstant _ _ r
  | .compare _ _ r | .compareConstant _ _ r => (effectiveAddress s r).toOption
  | .jumpTo _ | .branchIfEqual _ _ _ | .branchIfEqualConstant _ _ _ | .branchIfNotEqual _ _ _
  | .branchIfNotEqualConstant _ _ _ | .data | .breakRun | .halt => none

/-- The target a control-transfer instruction may write to `pc` (rule R120); `none` for the others. -/
def transferTarget : Instr → Option Int
  | .jumpTo l | .branchIfEqual _ _ l | .branchIfEqualConstant _ _ l | .branchIfNotEqual _ _ l
  | .branchIfNotEqualConstant _ _ l => some l
  | .copyToFrom _ _ | .copyToFromConstant _ _ | .copyToFromAddress _ _ | .copyIntoAddress _ _
  | .copyAddressOfLabel _ _ | .add _ _ _ | .addConstant _ _ _ | .subtract _ _ _ | .subtractConstant _ _ _
  | .multiply _ _ _ | .multiplyConstant _ _ _ | .divide _ _ _ | .divideConstant _ _ _ | .modulo _ _ _
  | .moduloConstant _ _ _ | .compare _ _ _ | .compareConstant _ _ _ | .data | .breakRun | .halt => none

/-! ### The shapes of the instruction rules

Each says of one instruction, given the effective addresses of its operands: its encoding with the opcode number `code` that
its rule prints, its errors in the order of its rule, and its effect when none applies. -/

/-- An arithmetic rule `a b result` on two addresses whose result may leave the domain (rules R106, R108, R110). -/
def OverflowRule (o : Opcode) (code : Int) (mk : Int → Int → Int → Instr) (f : Int → Int → Int) : Prop :=
  ∀ (s : State) (a b r pa pb pr : Int), Memory.wf s.mem →
    effectiveAddress s a = .ok pa → effectiveAddress s b = .ok pb → effectiveAddress s r = .ok pr →
    encode (mk a b r) = [code, a, b, r] ∧
    (¬InBounds pa → EndsInFault o s .outOfBounds pa (exec (mk a b r) s)) ∧
    (InBounds pa → ¬InBounds pb → EndsInFault o s .outOfBounds pb (exec (mk a b r) s)) ∧
    (InBounds pa → InBounds pb → ¬InBounds pr → EndsInFault o s .outOfBounds pr (exec (mk a b r) s)) ∧
    (InBounds pa → InBounds pb → InBounds pr → ¬InDomain (f (s.cell pa) (s.cell pb)) →
      EndsInFault o s .invalidValue (f (s.cell pa) (s.cell pb)) (exec (mk a b r) s)) ∧
    (InBounds pa → InBounds pb → InBounds pr → InDomain (f (s.cell pa) (s.cell pb)) →
      EndsInStore s pr (f (s.cell pa) (s.cell pb)) (exec (mk a b r) s))

/-- The constant form of `OverflowRule` (rules R107, R109, R111). -/
def OverflowConstantRule (o : Opcode) (code : Int) (mk : Int → Int → Int → Instr) (f : Int → Int → Int) : Prop :=
  ∀ (s : State) (a b r pa pr : Int), Memory.wf s.mem →
    effectiveAddress s a = .ok pa → effectiveAddress s r = .ok pr →
    encode (mk a b r) = [code, a, b, r] ∧
    (¬InBounds pa → EndsInFault o s .outOfBounds pa (exec (mk a b r) s)) ∧
    (InBounds pa → ¬InBounds pr → EndsInFault o s .outOfBounds pr (exec (mk a b r) s)) ∧
    (InBounds pa → InBounds pr → ¬InDomain (f (s.cell pa) b) →
      EndsInFault o s .invalidValue (f (s.cell pa) b) (exec (mk a b r) s)) ∧
    (InBounds pa → InBounds pr → InDomain (f (s.cell pa) b) →
      EndsInStore s pr (f (s.cell pa) b) (exec (mk a b r) s))

/-- A division rule `a b result` on two addresses (rules R112, R114): the zero divisor is reported before the destination
is checked, and the result always lies in the domain. -/
def DivisorRule (o : Opcode) (code : Int) (mk : Int → Int → Int → Instr) (zero : RuntimeError) (f : Int → Int → Int) : Prop :=
  ∀ (s : State) (a b r pa pb pr : Int), Memory.wf s.mem →
    effectiveAddress s a = .ok pa → effectiveAddress s b = .ok pb → effectiveAddress s r = .ok pr →
    encode (mk a b r) = [code, a, b, r] ∧
    (¬InBounds pa → EndsInFault o s .outOfBounds pa (exec (mk a b r) s)) ∧
    (InBounds pa → ¬InBounds pb → EndsInFault o s .outOfBounds pb (exec (mk a b r) s)) ∧
    (InBounds pa → InBounds pb → s.cell pb = 0 → EndsInFault o s zero (s.cell pa) (exec (mk a b r) s)) ∧
    (InBounds pa → InBounds pb → s.cell pb ≠ 0 → ¬InBounds pr →
      EndsInFault o s .outOfBounds pr (exec (mk a b r) s)) ∧
    (InBounds pa → InBounds pb → s.cell pb ≠ 0 → InBounds pr →
      EndsInStore s pr (f (s.cell pa) (s.cell pb)) (exec (mk a b r) s))

/-- The constant form of `DivisorRule` (rules R113, R115). -/
def DivisorConstantRule (o : Opcode) (code : Int) (mk : Int → Int → Int → Instr) (zero : RuntimeError) (f : Int → Int → Int) : Prop :=
  ∀ (s : State) (a b r pa pr : Int), Memory.wf s.mem →
    effectiveAddress s a = .ok pa → effectiveAddress s r = .ok pr →
    encode (mk a b r) = [code, a, b, r] ∧
    (¬InBounds pa → EndsInFault o s .outOfBounds pa (exec (mk a b r) s)) ∧
    (InBounds pa → b = 0 → EndsInFault o s zero (s.cell pa) (exec (mk a b r) s)) ∧
    (InBounds pa → b ≠ 0 → ¬InBounds pr → EndsInFault o s .outOfBounds pr (exec (mk a b r) s)) ∧
    (InBounds pa → b ≠ 0 → InBounds pr → EndsInStore s pr (f (s.cell pa) b) (exec (mk a b r) s))

/-- The compare rule on two addresses (rule R118); the result always lies in the domain. -/
def CompareRule (o : Opcode) (code : Int) (mk : Int → Int → Int → Instr) : Prop :=
  ∀ (s : State) (a b r pa pb pr : Int), Memory.wf s.mem →
    effectiveAddress s a = .ok pa → effectiveAddress s b = .ok pb → effectiveAddress s r = .ok pr →
    encode (mk a b r) = [code, a, b, r] ∧
    (¬InBounds pa → EndsInFault o s .outOfBounds pa (exec (mk a b r) s)) ∧
    (InBounds pa → ¬InBounds pb → EndsInFault o s .outOfBounds pb (exec (mk a b r) s)) ∧
    (InBounds pa → InBounds pb → ¬InBounds pr → EndsInFault o s .outOfBounds pr (exec (mk a b r) s)) ∧
    (InBounds pa → InBounds pb → InBounds pr → s.cell pa < s.cell pb → EndsInStore s pr (-1) (exec (mk a b r) s)) ∧
    (InBounds pa → InBounds pb → InBounds pr → s.cell pa = s.cell pb → EndsInStore s pr 0 (exec (mk a b r) s)) ∧
    (InBounds pa → InBounds pb → InBounds pr → s.cell pa > s.cell pb → EndsInStore s pr 1 (exec (mk a b r) s))

/-- The constant form of `CompareRule` (rule R119). -/
def CompareConstantRule (o : Opcode) (code : Int) (mk : Int → Int → Int → Instr) : Prop :=
  ∀ (s : State) (a b r pa pr : Int), Memory.wf s.mem →
    effectiveAddress s a = .ok pa → effectiveAddress s r = .ok pr →
    encode (mk a b r) = [code, a, b, r] ∧
    (¬InBounds pa → EndsInFault o s .outOfBounds pa (exec (mk a b r) s)) ∧
    (InBounds pa → ¬InBounds pr → EndsInFault o s .outOfBounds pr (exec (mk a b r) s)) ∧
    (InBounds pa → InBounds pr → s.cell pa < b → EndsInStore s pr (-1) (exec (mk a b r) s)) ∧
    (InBounds pa → InBounds pr → s.cell pa = b → EndsInStore s pr 0 (exec (mk a b r) s)) ∧
    (InBounds pa → InBounds pr → s.cell pa > b → EndsInStore s pr 1 (exec (mk a b r) s))

/-- The branch rule on two addresses (rules R122, R124): `taken` decides from the two values. -/
def BranchRule (o : Opcode) (code : Int) (mk : Int → Int → Int → Instr) (taken : Int → Int → Prop) : Prop :=
  ∀ (s : State) (a b l pa pb : Int), effectiveAddress s a = .ok pa → effectiveAddress s b = .ok pb →
    encode (mk a b l) = [code, a, b, l] ∧
    (¬InBounds pa → EndsInFault o s .outOfBounds pa (exec (mk a b l) s)) ∧
    (InBounds pa → ¬InBounds pb → EndsInFault o s .outOfBounds pb (exec (mk a b l) s)) ∧
    (InBounds pa → InBounds pb → taken (s.cell pa) (s.cell pb) → EndsAt s l (exec (mk a b l) s)) ∧
    (InBounds pa → InBounds pb → ¬taken (s.cell pa) (s.cell pb) → EndsAt s s.pc (exec (mk a b l) s))

/-- The constant form of `BranchRule` (rules R123, R125). -/
def BranchConstantRule (o : Opcode) (code : Int) (mk : Int → Int → Int → Instr) (taken : Int → Int → Prop) : Prop :=
  ∀ (s : State) (a b l pa : Int), effectiveAddress s a = .ok pa →
    encode (mk a b l) = [code, a, b, l] ∧
    (¬InBounds pa → EndsInFault o s .outOfBounds pa (exec (mk a b l) s)) ∧
    (InBounds pa → taken (s.cell pa) b → EndsAt s l (exec (mk a b l) s)) ∧
    (InBounds pa → ¬taken (s.cell pa) b → EndsAt s s.pc (exec (mk a b l) s))

end Sys2Proof.Machine
end

