-- ==== Sys2Proof/Certificates/Slice0/Obligations.lean ====
section
/-! DEFINITION. The statements about the machine. The rule a statement follows is named in its docstring; the terms are those
of Safety.lean. -/

open Sys2Proof Sys2Proof.Machine

/-! ### Encoding -/

/-- Words written out from the tables of rules R62 and R63, one per family, decode to the instruction they stand for. (The
opcode numbers are the spec's own choice, log entry 11.) -/
def Obligations.SampleWordsDecode : Prop :=
  decode [9000, 5, 7] = .ok (.copyToFrom 5 7, []) ∧
  decode [9002, 2, 0, 77] = .ok (.copyToFromAddress 2 0, [77]) ∧
  decode [9011, 0, -5, 1] = .ok (.addConstant 0 (-5) 1, []) ∧
  decode [9040, 0, 1, 2] = .ok (.divide 0 1 2, []) ∧
  decode [9090, 0, 1, 2] = .ok (.compare 0 1 2, []) ∧
  decode [9100, 1003] = .ok (.jumpTo 1003, []) ∧
  decode [9104, 0, -1, 1020] = .ok (.branchIfNotEqualConstant 0 (-1) 1020, []) ∧
  decode [9998] = .ok (.breakRun, []) ∧
  decode [12345, 9999] = .error (.unknownOpcode 12345)

/-- Rule R64: the instruction of an opcode cell is that of the opcode map, by equality of whole integers; operand cells are
passed as they are, whatever they hold. -/
def Obligations.DecodeFollowsOpcodeMap : Prop :=
  (∀ (o : Opcode) (raws rest : List Int), raws.length = o.arity →
    ∃ i, decode (o.code :: raws ++ rest) = .ok (i, rest) ∧ i.opcode = o ∧ i.operands = raws) ∧
  (∀ (op : Int) (rest : List Int), (∀ o : Opcode, o.code ≠ op) → decode (op :: rest) = .error (.unknownOpcode op)) ∧
  (∀ o p : Opcode, o.code = p.code → o = p)

/-- Decode and encode agree on every well-formed instruction, on cells and on the bits of the host's table question (the
layout of cells as bits is the model's own, log entry 7). -/
def Obligations.DecodeOfEncodeIsIdentity : Prop :=
  ∀ i : Instr, i.WellFormed →
    (∀ rest, decode (encode i ++ rest) = .ok (i, rest)) ∧
    decodeTableWord (64 * i.length) (wordOfCells (encode i)) = some i

/-- Rule R61 (rule R66 infers the length from it): cells that decode are the encoding of what they decode to, followed by the rest. -/
def Obligations.DecodeReadsOnlyEncodings : Prop :=
  ∀ (cells : List Int) (i : Instr) (rest : List Int), decode cells = .ok (i, rest) → cells = encode i ++ rest

/-- Rules R61 and R64 (rule R98 marks disassembly as its own inference from R64, R91 and R97): where memory holds the encoding
of an instruction, the disassembler gives its mnemonic and operands. Where the operand cells would lie past cell 3099, rule
R98 is silent, and that they read as 0 is the model's choice (DESIGN CHOICE, log entry 23). -/
def Obligations.DisassemblyInvertsEncoding : Prop :=
  ∀ (i : Instr) (m : Memory) (a : Nat), Memory.readList m a i.length = encode i →
    disassemble m a = some (i.opcode.name, i.operands)

/-! ### Memory, operands and the address map -/

/-- Rules R41 and R42: what a read and a write check, in which order, and what they do; read after write, and no other cell
written. That a write keeps the canonical form is about the model's own form of memory (DESIGN CHOICE, log entry 1). -/
def Obligations.MemoryAccessPrimitives : Prop :=
  ∀ (s : State) (a v : Int), Memory.wf s.mem →
    (¬InBounds a → memRead s a = .error { cause := .outOfBounds, info := a }) ∧
    (InBounds a → memRead s a = .ok (Memory.read s.mem a.toNat)) ∧
    (¬InBounds a → memWrite s a v = .error { cause := .outOfBounds, info := a }) ∧
    (InBounds a → ¬InDomain v → memWrite s a v = .error { cause := .invalidValue, info := v }) ∧
    (InBounds a → InDomain v → ∃ t, memWrite s a v = .ok t ∧ memRead t a = .ok v ∧ SameMemoryBut s t a ∧ t.pc = s.pc ∧
      SameControl s t ∧ SameOwn s t ∧ Memory.wf t.mem)

/-- Rules R68 and R71: the effective address, with and without the indirect option. -/
def Obligations.EffectiveAddressOfOperand : Prop :=
  ∀ (s : State) (raw : Int),
    (s.indirectOperands = false → effectiveAddress s raw = .ok raw) ∧
    (s.indirectOperands = true → -3100 ≤ raw → raw ≤ -1 →
      effectiveAddress s raw = .ok (Memory.read s.mem (-raw - 1).toNat)) ∧
    (s.indirectOperands = true → (raw < -3100 ∨ -1 < raw) → effectiveAddress s raw = .ok raw)

/-- Rule R71: `-(n + 1)` encodes "indirect through cell `n`" for every cell, and only raw values in the range are such
encodings. -/
def Obligations.IndirectEncodingNamesEveryCell : Prop :=
  (∀ n : Int, 0 ≤ n → n < 3100 → InIndirectRange (indirectRaw n)) ∧
  (∀ raw : Int, InIndirectRange raw → ∃ n, InBounds n ∧ raw = indirectRaw n ∧ ∀ m, raw = indirectRaw m → m = n)

/-- Rule R47: the five regions partition memory, and instruction fetch reads exactly program memory (rule R74). (The
boundaries are the spec's own choice, log entry 12.) -/
def Obligations.RegionsPartitionMemory : Prop :=
  (∀ s : State, (∃ v t, fetchCell s = .ok (v, t)) ↔ regionOf s.pc = some .program) ∧
  ∀ a : Int, (InBounds a ↔ regionOf a ≠ none) ∧ (regionOf a = some .working ↔ 0 ≤ a ∧ a < 1000) ∧
    (regionOf a = some .program ↔ InProgram a) ∧ (regionOf a = some .input ↔ 2000 ≤ a ∧ a < 2050) ∧
    (regionOf a = some .video ↔ 2050 ≤ a ∧ a < 3074) ∧ (regionOf a = some .audio ↔ 3074 ≤ a ∧ a < 3100)

/-- Rules R49 and R50: each video cell is the cell of exactly one pixel, and the audio control cells are the nine cells from
3074 on, one per channel and control. -/
def Obligations.DeviceCellsAreDistinct : Prop :=
  (∀ a : Int, 2050 ≤ a → a < 3074 → ∃ x y, (0 ≤ x ∧ x < 32 ∧ 0 ≤ y ∧ y < 32 ∧ videoCell x y = a) ∧
    ∀ x' y', 0 ≤ x' → x' < 32 → 0 ≤ y' → y' < 32 → videoCell x' y' = a → x' = x ∧ y' = y) ∧
  (∀ x y : Int, 0 ≤ x → x < 32 → 0 ≤ y → y < 32 → regionOf (videoCell x y) = some .video) ∧
  (∀ (c : Int) (k : AudioControl), 0 ≤ c → c < 3 → 3074 ≤ audioCell c k ∧ audioCell c k ≤ 3082) ∧
  (∀ (c d : Int) (j k : AudioControl), audioCell c j = audioCell d k → c = d ∧ j = k)

/-- Rule R52 with the fetch of rule R74: a store into program memory is what the next fetch of that cell reads. (Rule R57 marks
this as its own inference.) -/
def Obligations.StoreIntoCodeIsFetched : Prop :=
  ∀ (s : State) (a v : Int), Memory.wf s.mem → InProgram a →
    fetchCell ((s.store a v).withPc a) = .ok (v, (s.store a v).withPc (a + 1))

/-! ### The step -/

/-- Rule R75: where the cells at `pc` decode to an instruction that lies in program memory, a step is the input refresh, the
advance of `pc` past the instruction, and `exec` of it. -/
def Obligations.StepRunsDecodedInstruction : Prop :=
  ∀ (s : State) (i : Instr), StepAdmitted s → (∀ k : Nat, k < i.length → InProgram (s.pc + k)) →
    decode (Memory.readList s.mem s.pc.toNat i.length) = .ok (i, []) →
    step s = exec i ((refreshInput s).withPc (s.pc + i.length))

/-- Rules R48 and R75 step 1: the refresh writes the nine input cells and no other, and touches neither `pc` nor the control
state. The host's next vector takes the place of the one written, and the option and the delay stay (the model's own fields,
log entries 3, 9 and 10). -/
def Obligations.RefreshWritesInputCells : Prop :=
  ∀ s : State, Memory.wf s.mem →
    (refreshInput s).cell 2000 = s.input.key0 ∧ (refreshInput s).cell 2001 = s.input.key1 ∧
    (refreshInput s).cell 2002 = s.input.key2 ∧ (refreshInput s).cell 2003 = s.input.mouseX ∧
    (refreshInput s).cell 2004 = s.input.mouseY ∧ (refreshInput s).cell 2005 = s.input.mousePixel ∧
    (refreshInput s).cell 2006 = s.input.mouseButton ∧ (refreshInput s).cell 2007 = s.input.random ∧
    (refreshInput s).cell 2008 = s.input.time ∧
    (∀ b : Nat, (b < 2000 ∨ 2009 ≤ b) → Memory.read (refreshInput s).mem b = Memory.read s.mem b) ∧
    (refreshInput s).pc = s.pc ∧ SameControl s (refreshInput s) ∧
    (refreshInput s).input = hostInput s.inputClock ∧ (refreshInput s).inputClock = s.inputClock + 1 ∧
    (refreshInput s).indirectOperands = s.indirectOperands ∧ (refreshInput s).cycleDelayMs = s.cycleDelayMs

/-- Rule R34, each step has its own input vector, and rules R10 and R32: a step that answers a next state has consumed the
presented vector and put the host's next one in its place, whatever the step did, and has kept the option and the delay.
(How State holds the vectors is the model's choice, log entries 3, 9 and 10.) -/
def Obligations.StepTakesNextInputVector : Prop :=
  ∀ s t : State, step s = .next t →
    t.input = hostInput s.inputClock ∧ t.inputClock = s.inputClock + 1 ∧ t.indirectOperands = s.indirectOperands ∧
    t.cycleDelayMs = s.cycleDelayMs

/-- Rule R10: `INDIRECT_OPERANDS` is a parameter of the machine, so nothing the host or a program does writes it. (That State
holds it is the model's choice, log entry 9.) -/
def Obligations.OptionIsNeverWritten : Prop :=
  ∀ (es : List Event) (s : State), (applyEvents es s).1.indirectOperands = s.indirectOperands

/-- Rules R74, R75 and R135: the errors before execution, in their order. An opcode fetch outside program memory; an opcode
cell that holds no opcode; an instruction that runs past the end of program memory. -/
def Obligations.FetchAndDecodeFaults : Prop :=
  ∀ s : State, StepAdmitted s →
    (¬InProgram s.pc → StepFaults s .programCounterOutOfRange s.pc s.pc) ∧
    (InProgram s.pc → (∀ o : Opcode, o.code ≠ s.cell s.pc) → StepFaults s .unknownOpcode (s.cell s.pc) (s.pc + 1)) ∧
    (∀ o : Opcode, InProgram s.pc → o.code = s.cell s.pc → 2000 < s.pc + o.length →
      StepFaults s .programCounterOutOfRange 2000 2000)

/-- Rules R28 and R134: in `halted` and in `faulted` a step is rejected and the state is as it was. -/
def Obligations.StepRejectedWhenStopped : Prop :=
  ∀ (s : State) (inputs : InputVector),
    (controlState s = some .halted → step s = .refused .stepWhileHalted ∧ stepOnce inputs s = (s, .rejected)) ∧
    (controlState s = some .faulted → step s = .refused .stepWhileFaulted ∧ stepOnce inputs s = (s, .rejected))

/-- Rule R150: the state at power-on, and what a step in it does, whatever the host's inputs. (The last clause is the rule's own
inference from rules R63 and R75.) -/
def Obligations.PowerOnState : Prop :=
  (∀ a : Nat, Memory.read State.reset.mem a = 0) ∧ State.reset.pc = 1000 ∧ State.reset.running = false ∧
  State.reset.halted = false ∧ State.reset.fault = none ∧ controlState State.reset = some .paused ∧
  ∀ inputs : InputVector, inputs.InDomain →
    (stepOnce inputs State.reset).1.fault = some { cause := .unknownOpcode, atPc := 1000, info := 0 } ∧
    (stepOnce inputs State.reset).1.pc = 1001 ∧ (stepOnce inputs State.reset).2 = .runtimeError .unknownOpcode 0

/-! ### Invariants and whole-machine rules -/

/-- The invariant holds at power-on. (Its last clause is about the model's own first input vector, log entry 3.) -/
def Obligations.ResetMeetsInvariant : Prop := MachineInv State.reset

/-- Every step keeps the invariant: the canonical memory (the model's, log entry 1) with every cell in the domain (rule R39),
`pc` in the domain, the legal control states. (Rule R24 marks the last as its own inference.) -/
def Obligations.StepKeepsInvariant : Prop :=
  ∀ s t : State, MachineInv s → step s = .next t → MachineInv t

/-- Every sequence of commands and run-loop turns by a host that keeps its duty keeps the invariant. -/
def Obligations.EventsKeepInvariant : Prop :=
  ∀ (es : List Event) (s : State), (∀ e ∈ es, e.Conforms) → MachineInv s → MachineInv (applyEvents es s).1

/-- Rule R134, and rule R23 for `halted`: both states are terminal. Whatever the host does short of a load that succeeds,
memory, `pc`, the flags and the fault record stay, and a further `stepOnce` is rejected. -/
def Obligations.StoppedStatesAreLeftOnlyByLoad : Prop :=
  ∀ (es : List Event) (s : State), (controlState s = some .halted ∨ controlState s = some .faulted) →
    (∀ text, Event.command (.loadAndReset text) ∈ es → ∃ e, assemble s.indirectOperands text = .error e) →
    SameArchitecture s (applyEvents es s).1 ∧
      ∀ inputs, stepOnce inputs (applyEvents es s).1 = ((applyEvents es s).1, .rejected)

/-- Rules R74, R75 and R78 (rule R133 marks this as its own inference from them): a step that ends in a fault has written the input cells and nothing else; the record names the address of the
opcode cell; `pc` keeps the advance of the fetches. -/
def Obligations.FaultingStepIsPrecise : Prop :=
  ∀ s t : State, step s = .next t → t.fault ≠ none →
    SameMemory (refreshInput s) t ∧ (∃ cause info, t.fault = some { cause := cause, atPc := s.pc, info := info }) ∧
    t.running = false ∧ t.halted = false ∧ s.pc ≤ t.pc ∧ t.pc ≤ s.pc + 4

/-- Rules R46 and R77: an instruction writes no cell but the one at the address its meaning stores to; a form that stores
nothing leaves all of memory. -/
def Obligations.ExecWritesOnlyItsStoreAddress : Prop :=
  ∀ (i : Instr) (s t : State), exec i s = .next t →
    ∀ b : Nat, storeAddress i s ≠ some (b : Int) → Memory.read t.mem b = Memory.read s.mem b

/-- Rules R21 to R23: an instruction writes `pc` only as a control transfer, and then its label operand; none sets
`running`; only `halt` sets `halted`; none clears a fault; and no instruction both writes a cell and writes `pc`
(rule R77). -/
def Obligations.ExecWritesControlOnlyAsNamed : Prop :=
  ∀ (i : Instr) (s t : State), exec i s = .next t →
    (t.pc = s.pc ∨ transferTarget i = some t.pc) ∧ (t.pc ≠ s.pc → SameMemory s t) ∧
    (t.running = true → s.running = true) ∧ (t.halted = s.halted ∨ (i = .halt ∧ t.halted = true)) ∧
    (t.fault = none → s.fault = none) ∧ SameOwn s t

/-- No instruction stops the model: each answers a next state in every state, its own effect or the fault state of rule
R132. -/
def Obligations.EveryInstructionAnswersNext : Prop :=
  ∀ (i : Instr) (s : State), ∃ t, exec i s = .next t

/-! ### The copy family -/

/-- Rule R100, `copy_to_from`. -/
def Obligations.CopyToFromRule : Prop :=
  ∀ (s : State) (destination source d p : Int), Memory.wf s.mem →
    effectiveAddress s destination = .ok d → effectiveAddress s source = .ok p →
    encode (.copyToFrom destination source) = [9000, destination, source] ∧
    (¬InBounds p → EndsInFault .copyToFrom s .outOfBounds p (exec (.copyToFrom destination source) s)) ∧
    (InBounds p → ¬InBounds d → EndsInFault .copyToFrom s .outOfBounds d (exec (.copyToFrom destination source) s)) ∧
    (InBounds p → InBounds d → EndsInStore s d (s.cell p) (exec (.copyToFrom destination source) s))

/-- Rule R101, `copy_to_from_constant`: the constant is the content of a cell, so it lies in the domain (rule R69). -/
def Obligations.CopyToFromConstantRule : Prop :=
  ∀ (s : State) (destination value d : Int), Memory.wf s.mem → InDomain value →
    effectiveAddress s destination = .ok d →
    encode (.copyToFromConstant destination value) = [9001, destination, value] ∧
    (¬InBounds d →
      EndsInFault .copyToFromConstant s .outOfBounds d (exec (.copyToFromConstant destination value) s)) ∧
    (InBounds d → EndsInStore s d value (exec (.copyToFromConstant destination value) s))

/-- Rule R102, `copy_to_from_address`. -/
def Obligations.CopyThroughPointerSourceRule : Prop :=
  ∀ (s : State) (destination sourcePointer d : Int), Memory.wf s.mem → effectiveAddress s destination = .ok d →
    encode (.copyToFromAddress destination sourcePointer) = [9002, destination, sourcePointer] ∧
    (¬InBounds sourcePointer → EndsInFault .copyToFromAddress s .outOfBounds sourcePointer
      (exec (.copyToFromAddress destination sourcePointer) s)) ∧
    (InBounds sourcePointer → ¬InBounds (s.cell sourcePointer) →
      EndsInFault .copyToFromAddress s .outOfBounds (s.cell sourcePointer)
        (exec (.copyToFromAddress destination sourcePointer) s)) ∧
    (InBounds sourcePointer → InBounds (s.cell sourcePointer) → ¬InBounds d →
      EndsInFault .copyToFromAddress s .outOfBounds d (exec (.copyToFromAddress destination sourcePointer) s)) ∧
    (InBounds sourcePointer → InBounds (s.cell sourcePointer) → InBounds d →
      EndsInStore s d (s.cell (s.cell sourcePointer)) (exec (.copyToFromAddress destination sourcePointer) s))

/-- Rule R103, `copy_into_address`. -/
def Obligations.CopyThroughPointerDestinationRule : Prop :=
  ∀ (s : State) (destinationPointer source p : Int), Memory.wf s.mem → effectiveAddress s source = .ok p →
    encode (.copyIntoAddress destinationPointer source) = [9003, destinationPointer, source] ∧
    (¬InBounds destinationPointer → EndsInFault .copyIntoAddress s .outOfBounds destinationPointer
      (exec (.copyIntoAddress destinationPointer source) s)) ∧
    (InBounds destinationPointer → ¬InBounds p →
      EndsInFault .copyIntoAddress s .outOfBounds p (exec (.copyIntoAddress destinationPointer source) s)) ∧
    (InBounds destinationPointer → InBounds p → ¬InBounds (s.cell destinationPointer) →
      EndsInFault .copyIntoAddress s .outOfBounds (s.cell destinationPointer)
        (exec (.copyIntoAddress destinationPointer source) s)) ∧
    (InBounds destinationPointer → InBounds p → InBounds (s.cell destinationPointer) →
      EndsInStore s (s.cell destinationPointer) (s.cell p) (exec (.copyIntoAddress destinationPointer source) s))

/-- Rule R104, `copy_address_of_label`: the label is the content of a cell, so it lies in the domain (rule R99). -/
def Obligations.CopyAddressOfLabelRule : Prop :=
  ∀ (s : State) (destination label d : Int), Memory.wf s.mem → InDomain label →
    effectiveAddress s destination = .ok d →
    encode (.copyAddressOfLabel destination label) = [9004, destination, label] ∧
    (¬InBounds d →
      EndsInFault .copyAddressOfLabel s .outOfBounds d (exec (.copyAddressOfLabel destination label) s)) ∧
    (InBounds d → EndsInStore s d label (exec (.copyAddressOfLabel destination label) s))

/-! ### The arithmetic and compare families -/

/-- Rules R106 and R107, `add` and `add_constant`. -/
def Obligations.AddRules : Prop :=
  OverflowRule .add 9010 Instr.add (fun x y => x + y) ∧ OverflowConstantRule .addConstant 9011 Instr.addConstant (fun x y => x + y)

/-- Rules R108 and R109, `subtract` and `subtract_constant`. -/
def Obligations.SubtractRules : Prop :=
  OverflowRule .subtract 9020 Instr.subtract (fun x y => x - y) ∧
  OverflowConstantRule .subtractConstant 9021 Instr.subtractConstant (fun x y => x - y)

/-- Rules R110 and R111, `multiply` and `multiply_constant`. -/
def Obligations.MultiplyRules : Prop :=
  OverflowRule .multiply 9030 Instr.multiply (fun x y => x * y) ∧
  OverflowConstantRule .multiplyConstant 9031 Instr.multiplyConstant (fun x y => x * y)

/-- Rules R112 and R113, `divide` and `divide_constant`. -/
def Obligations.DivideRules : Prop :=
  DivisorRule .divide 9040 Instr.divide .divisionByZero truncDiv ∧
  DivisorConstantRule .divideConstant 9041 Instr.divideConstant .divisionByZero truncDiv

/-- Rules R114 and R115, `modulo` and `modulo_constant`. -/
def Obligations.ModuloRules : Prop :=
  DivisorRule .modulo 9050 Instr.modulo .moduloByZero truncRem ∧
  DivisorConstantRule .moduloConstant 9051 Instr.moduloConstant .moduloByZero truncRem

/-- Rule R105: for a non-zero divisor the quotient is rounded toward zero for every sign combination, and the remainder is
what is left, smaller than the divisor, with the sign of the dividend or 0. -/
def Obligations.DivisionTruncatesTowardZero : Prop :=
  ∀ a b : Int, b ≠ 0 →
    a = b * truncDiv a b + truncRem a b ∧ (truncRem a b).natAbs < b.natAbs ∧
    (0 ≤ a → 0 ≤ truncRem a b) ∧ (a ≤ 0 → truncRem a b ≤ 0) ∧
    (truncDiv a b).natAbs = a.natAbs / b.natAbs ∧
    (InDomain a → InDomain (truncDiv a b) ∧ InDomain (truncRem a b))

/-- Rules R117 to R119, `compare` and `compare_constant`. -/
def Obligations.CompareRules : Prop :=
  CompareRule .compare 9090 Instr.compare ∧ CompareConstantRule .compareConstant 9091 Instr.compareConstant

/-! ### The control-transfer family -/

/-- Rule R121, `jump_to`: the target is not checked. -/
def Obligations.JumpToRule : Prop :=
  ∀ (s : State) (label : Int),
    encode (.jumpTo label) = [9100, label] ∧ EndsAt s label (exec (.jumpTo label) s)

/-- Rules R122 and R123, `branch_if_equal` and `branch_if_equal_constant`. -/
def Obligations.BranchIfEqualRules : Prop :=
  BranchRule .branchIfEqual 9101 Instr.branchIfEqual (fun x y => x = y) ∧
  BranchConstantRule .branchIfEqualConstant 9102 Instr.branchIfEqualConstant (fun x y => x = y)

/-- Rules R124 and R125, `branch_if_not_equal` and `branch_if_not_equal_constant`. -/
def Obligations.BranchIfNotEqualRules : Prop :=
  BranchRule .branchIfNotEqual 9103 Instr.branchIfNotEqual (fun x y => x ≠ y) ∧
  BranchConstantRule .branchIfNotEqualConstant 9104 Instr.branchIfNotEqualConstant (fun x y => x ≠ y)

/-! ### The system family -/

/-- Rule R127, `data` executed: no effect; by a step, `pc` moves past its one cell. In the assembler it emits its values and
no opcode. -/
def Obligations.DataIsNoOp : Prop :=
  encode .data = [9200] ∧ (∀ s : State, exec .data s = .next s) ∧
  (∀ s : State, StepAdmitted s → InProgram s.pc → s.cell s.pc = 9200 →
    step s = .next ((refreshInput s).withPc (s.pc + 1))) ∧
  ∀ (indirectOption : Bool) (labels defines : NameTable) (values : List Int) (line : Nat),
    emit indirectOption labels defines [{ body := .data (values.map .literal), line := line }] = .ok values

/-- Rule R128, `break`: `running` is cleared and nothing else changes; a block that was paused or running is paused, the run
loop issues no further step, and a `run` resumes it. By a step, `pc` is then at the next cell. -/
def Obligations.BreakPauses : Prop :=
  encode .breakRun = [9998] ∧
  ∀ s : State, ∃ t, exec .breakRun s = .next t ∧ t.running = false ∧ t.halted = s.halted ∧ t.fault = s.fault ∧
    t.pc = s.pc ∧ SameMemory s t ∧ SameOwn s t ∧
    ((controlState s = some .paused ∨ controlState s = some .running) →
      controlState t = some .paused ∧ (∀ n, runLoop n t = (t, [])) ∧ controlState (runCommand t) = some .running) ∧
    (StepAdmitted s → InProgram s.pc → s.cell s.pc = 9998 →
      step s = .next (pauseFlags ((refreshInput s).withPc (s.pc + 1))))

/-- Rule R129, `halt`: `running` is cleared, `halted` is set and nothing else changes; a block that was paused or running is
halted, and then neither a `stepOnce` nor a `run` changes anything. By a step, `pc` is then at the next cell. -/
def Obligations.HaltStops : Prop :=
  encode .halt = [9999] ∧
  ∀ s : State, ∃ t, exec .halt s = .next t ∧ t.running = false ∧ t.halted = true ∧ t.fault = s.fault ∧
    t.pc = s.pc ∧ SameMemory s t ∧ SameOwn s t ∧
    ((controlState s = some .paused ∨ controlState s = some .running) →
      controlState t = some .halted ∧ runCommand t = t ∧ ∀ inputs, stepOnce inputs t = (t, .rejected)) ∧
    (StepAdmitted s → InProgram s.pc → s.cell s.pc = 9999 →
      step s = .next (haltFlags ((refreshInput s).withPc (s.pc + 1))))

/-! ### The host interface -/

/-- The table of rule R36, which marks it as its own inference from rules R27 to R33, R128, R129 and R132: the control state
after each command, for each control state it may find. The row of a step depends on how
the step ended and on which instruction it fetched. -/
def Obligations.CommandTransitions : Prop :=
  ∀ s : State,
    (∀ text, (∃ image, assemble s.indirectOperands text = .ok image) →
      controlState (command (.loadAndReset text) s).1 = some .paused) ∧
    (∀ text, (∃ e, assemble s.indirectOperands text = .error e) → (command (.loadAndReset text) s).1 = s) ∧
    (controlState s = some .paused → controlState (command .run s).1 = some .running) ∧
    (controlState s ≠ some .paused → (command .run s).1 = s) ∧
    (controlState s = some .running → controlState (command .stop s).1 = some .paused) ∧
    (controlState s ≠ some .running → (command .stop s).1 = s) ∧
    (∀ ms, SameArchitecture s (command (.setCycleDelay ms) s).1) ∧
    (∀ a, (command (.readMemory a) s).1 = s) ∧
    (∀ inputs, (controlState s = some .halted ∨ controlState s = some .faulted) →
      command (.stepOnce inputs) s = (s, .rejected)) ∧
    (∀ inputs, inputs.InDomain → (controlState s = some .paused ∨ controlState s = some .running) →
      ((command (.stepOnce inputs) s).1.fault ≠ none →
        controlState (command (.stepOnce inputs) s).1 = some .faulted) ∧
      ((command (.stepOnce inputs) s).1.fault = none →
        ∃ i t, fetchInstr (refreshInput { s with input := inputs }) = .ok (i, t) ∧
          controlState (command (.stepOnce inputs) s).1 =
            if i = .halt then some .halted else if i = .breakRun then some .paused else controlState s))

/-- Rule R151: what a load leaves, in any control state, and that it keeps the model's own fields. That memory is then canonical is about
the model's own form of memory (DESIGN CHOICE, log entry 1). -/
def Obligations.LoadEstablishesState : Prop :=
  ∀ (image : List Int) (s : State), image.length ≤ 1000 → (∀ v ∈ image, InDomain v) →
    (∀ (k : Nat) (h : k < image.length), Memory.read (load image s).mem (1000 + k) = image[k]) ∧
    (∀ a : Nat, (a < 1000 ∨ 1000 + image.length ≤ a) → Memory.read (load image s).mem a = 0) ∧
    (load image s).pc = 1000 ∧ (load image s).running = false ∧ (load image s).halted = false ∧
    (load image s).fault = none ∧ controlState (load image s) = some .paused ∧ Memory.wf (load image s).mem ∧
    SameOwn s (load image s)

/-- Rules R27 and R137: an assembly error leaves the state exactly as it was and is reported; a success is the load of the
image. -/
def Obligations.LoadAndResetIsAtomic : Prop :=
  ∀ (text : String) (s : State),
    (∀ e, assemble s.indirectOperands text = .error e → command (.loadAndReset text) s = (s, .assemblyError e)) ∧
    (∀ image, assemble s.indirectOperands text = .ok image →
      command (.loadAndReset text) s = (load image s, .done))

/-- Rules R33 and R138: `readMemory` answers the cell, or out of bounds, and changes nothing. -/
def Obligations.ReadMemoryHasNoEffect : Prop :=
  ∀ (s : State) (a : Int),
    (InBounds a → command (.readMemory a) s = (s, .value (Memory.read s.mem a.toNat))) ∧
    (¬InBounds a → command (.readMemory a) s = (s, .readOutOfBounds a))

/-- Rule R156: the run loop issues no step once `running` is false, however much fuel is left, and while `running` holds each
turn is one step. -/
def Obligations.RunLoopStopsWithRunning : Prop :=
  ∀ (s : State) (n m : Nat),
    ((runLoop n s).1.running = false → runLoop (n + m) s = runLoop n s) ∧
    (∀ t, s.running = true → step s = .next t → (runLoop (n + 1) s).1 = (runLoop n t).1)

/-- Rule R132, `report E(info) to the host`, for a step by command and for a step of the run loop alike: the reply is the
error and its information exactly when the step raised one. -/
def Obligations.StepsReportTheirErrors : Prop :=
  ∀ s t : State, step s = .next t →
    (∀ f, t.fault = some f → stepOnce s.input s = (t, .runtimeError f.cause f.info)) ∧
    (t.fault = none → stepOnce s.input s = (t, .done)) ∧
    (s.running = true → loopStep s = stepOnce s.input s ∧ applyEvent .loopTurn s = stepOnce s.input s)

/-- Rules R132 and R156: the run loop reports at most one runtime error, the one in the fault record, as the last thing it
reports, and none if there is no fault. -/
def Obligations.RunLoopReportsItsError : Prop :=
  ∀ (n : Nat) (s : State), s.fault = none →
    (∀ f, (runLoop n s).1.fault = some f → (runLoop n s).2.getLast? = some (.runtimeError f.cause f.info)) ∧
    ((runLoop n s).1.fault = none → ∀ cause info, Reply.runtimeError cause info ∉ (runLoop n s).2) ∧
    ∀ cause info, Reply.runtimeError cause info ∉ (runLoop n s).2.dropLast

/-- Rules R32 and R163: no step depends on `CYCLE_DELAY_MS`. -/
def Obligations.CycleDelayAffectsNoStep : Prop :=
  ∀ (s t : State) (ms : Int), step s = .next t → step { s with cycleDelayMs := ms } = .next { t with cycleDelayMs := ms }

/-! ### The assembler -/

/-- Rules R88 and R92 (rule R95 marks the domain as its own inference): every image is at most as long as program memory, ends in the appended `halt`, and holds values
of the domain only. -/
def Obligations.AssembledImageIsLoadable : Prop :=
  ∀ (indirectOption : Bool) (text : String) (image : List Int), assemble indirectOption text = .ok image →
    image.length ≤ 1000 ∧ image.getLast? = some 9999 ∧ ∀ v ∈ image, InDomain v

/-- Rule R89 with 90_conflicts.md C1: each label is the address of the next emitted cell after its declaration. It lies inside
the image, because the appended halt (rule R88) follows it (rule R92 marks this as its own inference from R88 and R89). -/
def Obligations.LabelsNameTheNextEmittedCell : Prop :=
  ∀ (indirectOption : Bool) (text : String) (records before after : List AsmRecord) (labels : NameTable)
    (image : List Int) (n : Token) (line : Nat),
    parse indirectOption text.toList = .ok records → layout 1000 [] records = .ok labels →
    emit indirectOption labels [] records = .ok image →
    records = before ++ { body := .label n, line := line } :: after →
    (∃ head tail, image = head ++ tail ∧ emit indirectOption labels [] before = .ok head ∧
      lookupName labels n = some (1000 + head.length) ∧ tail ≠ [])

/-- A word stored where the step fetches is the instruction the next step runs (the layout of cells as bits is the model's
own, log entries 7 and 8). -/
def Obligations.StoredWordIsRunNext : Prop :=
  ∀ (s : State) (i : Instr), StepAdmitted s → Memory.wf s.mem → i.WellFormed →
    (∀ k : Nat, k < i.length → InProgram (s.pc + k)) →
    step (s.withFetchWord (64 * i.length) (wordOfCells (encode i))) =
      exec i ((refreshInput (s.withFetchWord (64 * i.length) (wordOfCells (encode i)))).withPc (s.pc + i.length))
end

