-- ==== Sys2Proof/Laws/Assembler.lean ====
section
/-! SUPPORT. What the assembler's passes can answer: parsed records are well formed, every emitted value lies in the domain,
sizes add up, and layout and emit go through a list of records piece by piece. -/

namespace Sys2Proof.Machine

/-! ### Well-formed records -/

/-- The literal of a value reference lies in the domain (rule R85). -/
def ValueRef.Ok : ValueRef → Prop
  | .literal v => InDomain v
  | .name _ => True

/-- The literals of an operand lie in the domain. -/
def AsmOperand.Ok : AsmOperand → Prop
  | .value v => v.Ok
  | .indirect v => v.Ok
  | .label _ => True

/-- What the parser guarantees of a record: its literals lie in the domain, its operand count is that of its mnemonic. -/
def AsmBody.Ok : AsmBody → Prop
  | .label _ => True
  | .define _ v => v.Ok
  | .data vs => ∀ v ∈ vs, v.Ok
  | .instr o os => os.length = o.arity ∧ ∀ x ∈ os, x.Ok

/-- The cells a list of records occupies. -/
def totalSize (rs : List AsmRecord) : Nat := (rs.map fun r => r.body.size).sum

@[simp] theorem totalSize_nil : totalSize [] = 0 := rfl
@[simp] theorem totalSize_cons (r : AsmRecord) (rs : List AsmRecord) :
    totalSize (r :: rs) = r.body.size + totalSize rs := by simp [totalSize]

theorem classifyValue_ok {t : Token} {v : ValueRef} (h : classifyValue t = some v) : v.Ok := by
  unfold classifyValue at h
  split at h
  · split at h
    · cases h; assumption
    · cases h
  · split at h
    · cases h
    · cases h; trivial

theorem classifyOperand_ok {b : Bool} {k : OperandKind} {t : Token} {x : AsmOperand}
    (h : classifyOperand b k t = some x) : x.Ok := by
  unfold classifyOperand at h
  split at h
  · cases h; trivial
  · split at h
    · obtain ⟨v, hv, rfl⟩ := Option.map_eq_some_iff.1 h; exact classifyValue_ok hv
    · cases h
  · obtain ⟨v, hv, rfl⟩ := Option.map_eq_some_iff.1 h; exact classifyValue_ok hv

theorem classifyOperands_ok {b : Bool} {ks : List OperandKind} {ts : List Token} {xs : List AsmOperand}
    (h : classifyOperands b ks ts = some xs) : xs.length = ks.length ∧ ∀ x ∈ xs, x.Ok := by
  induction ks generalizing ts xs with
  | nil => cases ts <;> simp [classifyOperands] at h; subst h; simp
  | cons k ks ih =>
    cases ts with
    | nil => simp [classifyOperands] at h
    | cons t ts =>
      simp only [classifyOperands] at h
      split at h
      · rename_i o os ho hos
        cases h
        obtain ⟨hl, hx⟩ := ih hos
        exact ⟨by simp [hl], by simpa using ⟨classifyOperand_ok ho, hx⟩⟩
      · cases h

theorem classifyValues_ok {ts : List Token} {vs : List ValueRef} (h : classifyValues ts = some vs) :
    ∀ v ∈ vs, v.Ok := by
  induction ts generalizing vs with
  | nil => cases h; simp
  | cons t ts ih =>
    simp only [classifyValues] at h
    split at h
    · rename_i v vs hv hvs; cases h; simpa using ⟨classifyValue_ok hv, ih hvs⟩
    · cases h

/-- A record the parser gives is well formed. -/
theorem parseTokens_ok {b : Bool} {n : Nat} {ts : List Token} {r : AsmRecord}
    (h : parseTokens b n ts = .ok (some r)) : r.body.Ok := by
  unfold parseTokens at h
  repeat' split at h
  all_goals first
    | cases h; done
    | (cases h; trivial)
    | (cases h; exact classifyValue_ok (by assumption))
    | (cases h; exact classifyValues_ok (by assumption))
    | (cases h; exact classifyOperands_ok (by assumption))

theorem parseLines_ok {b : Bool} {n : Nat} {ls : List (List Char)} {rs : List AsmRecord}
    (h : parseLines b n ls = .ok rs) : ∀ r ∈ rs, r.body.Ok := by
  induction ls generalizing n rs with
  | nil => cases h; simp
  | cons l ls ih =>
    simp only [parseLines] at h
    split at h
    · cases h
    · rename_i o ho
      split at h
      · cases h
      · rename_i rs' hrs
        cases h
        intro r hr
        rcases List.mem_append.1 hr with hr | hr
        · cases o with
          | none => cases hr
          | some r' => cases List.mem_singleton.1 hr; exact parseTokens_ok ho
        · exact ih hrs r hr

/-- What the parser gives: well-formed records, the last of them the appended `halt` (rule R88). -/
theorem parse_ok {b : Bool} {text : List Char} {rs : List AsmRecord} (h : parse b text = .ok rs) :
    (∀ r ∈ rs, r.body.Ok) ∧ ∃ front, rs = front ++ [trailingHalt] := by
  unfold parse at h
  split at h
  · cases h
  · rename_i front hf
    cases h
    refine ⟨fun r hr => ?_, front, rfl⟩
    rcases List.mem_append.1 hr with hr | hr
    · exact parseLines_ok hf r hr
    · cases List.mem_singleton.1 hr; exact ⟨rfl, by simp⟩

/-! ### Bind -/

/-- The bind of two computations succeeds only through both. -/
theorem bind_eq_ok {ε α β : Type} {x : Except ε α} {f : α → Except ε β} {y : β} (h : (x >>= f) = .ok y) :
    ∃ a, x = .ok a ∧ f a = .ok y := by
  cases x with
  | ok a => exact ⟨a, rfl, h⟩
  | error e => cases h

/-! ### Name tables -/

theorem lookupName_mem {table : NameTable} {n : Token} {v : Int} (h : lookupName table n = some v) :
    (n, v) ∈ table := by
  unfold lookupName at h
  obtain ⟨p, hp, rfl⟩ := Option.map_eq_some_iff.1 h
  have := List.find?_some hp
  simp only [beq_iff_eq] at this
  subst this
  exact List.mem_of_find?_eq_some hp

/-- A new name at the front hides no other name. -/
theorem lookupName_cons {table : NameTable} {n k : Token} {v w : Int} (h : lookupName table n = some v)
    (hk : lookupName table k = none) : lookupName ((k, w) :: table) n = some v := by
  have : k ≠ n := by rintro rfl; rw [h] at hk; cases hk
  simpa [lookupName, this] using h

/-! ### Layout -/

theorem layout_label {a : Int} {T L : NameTable} {n : Token} {line : Nat} {rs : List AsmRecord}
    (h : layout a T ({ body := .label n, line := line } :: rs) = .ok L) :
    lookupName T n = none ∧ layout a ((n, a) :: T) rs = .ok L := by
  simp only [layout] at h
  split at h
  · cases h
  · exact ⟨by assumption, h⟩

/-- Every entry of the Label Table is an old one or an address between the first cell and the last. -/
theorem layout_range {a : Int} {T L : NameTable} {rs : List AsmRecord} (h : layout a T rs = .ok L) :
    ∀ p ∈ L, p ∈ T ∨ (a ≤ p.2 ∧ p.2 ≤ a + totalSize rs) := by
  induction rs generalizing a T with
  | nil => cases h; exact fun p hp => .inl hp
  | cons r rs ih =>
    obtain ⟨body, line⟩ := r
    intro p hp
    cases body with
    | label n =>
      obtain ⟨-, h⟩ := layout_label h
      rcases ih h p hp with hp | hp
      · rcases List.mem_cons.1 hp with rfl | hp
        · exact .inr ⟨by simp, by simp; omega⟩
        · exact .inl hp
      · exact .inr (by simpa [AsmBody.size] using hp)
    | define n v => rcases ih h p hp with hp | hp
                    · exact .inl hp
                    · simp [AsmBody.size] at hp ⊢; omega
    | data vs => rcases ih h p hp with hp | hp
                 · exact .inl hp
                 · simp [AsmBody.size] at hp ⊢; omega
    | instr o os => rcases ih h p hp with hp | hp
                    · exact .inl hp
                    · simp [AsmBody.size] at hp ⊢; omega

/-- Layout keeps the entries it starts with. -/
theorem layout_keeps {a : Int} {T L : NameTable} {rs : List AsmRecord} {n : Token} {v : Int}
    (h : layout a T rs = .ok L) (hn : lookupName T n = some v) : lookupName L n = some v := by
  induction rs generalizing a T with
  | nil => cases h; exact hn
  | cons r rs ih =>
    obtain ⟨body, line⟩ := r
    cases body with
    | label k => obtain ⟨hk, h⟩ := layout_label h; exact ih h (lookupName_cons hn hk)
    | define k v => exact ih h hn
    | data vs => exact ih h hn
    | instr o os => exact ih h hn

/-- Layout of two lists of records in a row. -/
theorem layout_append {a : Int} {T L : NameTable} {xs ys : List AsmRecord} (h : layout a T (xs ++ ys) = .ok L) :
    ∃ M, layout a T xs = .ok M ∧ layout (a + totalSize xs) M ys = .ok L := by
  induction xs generalizing a T with
  | nil => exact ⟨T, rfl, by simpa using h⟩
  | cons r xs ih =>
    obtain ⟨body, line⟩ := r
    cases body with
    | label n =>
      obtain ⟨hn, h⟩ := layout_label h
      obtain ⟨M, h1, h2⟩ := ih h
      exact ⟨M, by simp only [layout, hn]; exact h1, by simpa [AsmBody.size] using h2⟩
    | define n v =>
      obtain ⟨M, h1, h2⟩ := ih h
      exact ⟨M, h1, by rw [totalSize_cons, Nat.cast_add, ← Int.add_assoc]; exact h2⟩
    | data vs =>
      obtain ⟨M, h1, h2⟩ := ih h
      exact ⟨M, h1, by rw [totalSize_cons, Nat.cast_add, ← Int.add_assoc]; exact h2⟩
    | instr o os =>
      obtain ⟨M, h1, h2⟩ := ih h
      exact ⟨M, h1, by rw [totalSize_cons, Nat.cast_add, ← Int.add_assoc]; exact h2⟩

/-! ### Emit -/

/-- Emit of two lists of records in a row. -/
theorem emit_append {b : Bool} {L D : NameTable} {xs ys : List AsmRecord} {image : List Int}
    (h : emit b L D (xs ++ ys) = .ok image) :
    ∃ head tail E, emit b L D xs = .ok head ∧ emit b L E ys = .ok tail ∧ image = head ++ tail := by
  induction xs generalizing D image with
  | nil => exact ⟨[], image, D, rfl, h, rfl⟩
  | cons r xs ih =>
    obtain ⟨body, line⟩ := r
    cases body with
    | label n => exact ih h
    | define n v =>
      simp only [List.cons_append, emit] at h ⊢
      split at h
      · cases h
      · rename_i hn
        obtain ⟨x, hx, h⟩ := bind_eq_ok h
        obtain ⟨head, tail, E, h1, h2, h3⟩ := ih h
        exact ⟨head, tail, E, by rw [hx]; exact h1, h2, h3⟩
    | data vs =>
      simp only [List.cons_append, emit] at h ⊢
      obtain ⟨cells, hc, h⟩ := bind_eq_ok h
      obtain ⟨rest, ht, h⟩ := bind_eq_ok h
      obtain ⟨head, tail, E, h1, h2, h3⟩ := ih ht
      cases h
      exact ⟨cells ++ head, tail, E, by rw [hc, h1]; rfl, h2, by rw [h3, List.append_assoc]⟩
    | instr o os =>
      simp only [List.cons_append, emit] at h ⊢
      obtain ⟨cells, hc, h⟩ := bind_eq_ok h
      obtain ⟨rest, ht, h⟩ := bind_eq_ok h
      obtain ⟨head, tail, E, h1, h2, h3⟩ := ih ht
      cases h
      exact ⟨o.code :: cells ++ head, tail, E, by rw [hc, h1]; rfl, h2, by rw [h3]; simp⟩

theorem resolveValue_inDomain {D : NameTable} {line : Nat} {v : ValueRef} {x : Int} (hv : v.Ok)
    (hD : ∀ p ∈ D, InDomain p.2) (h : resolveValue D line v = .ok x) : InDomain x := by
  unfold resolveValue at h
  split at h
  · cases h; exact hv
  · split at h
    · rename_i hn; cases h; exact hD _ (lookupName_mem hn)
    · cases h

theorem emitValues_ok {D : NameTable} {line : Nat} {vs : List ValueRef} {cells : List Int} (hv : ∀ v ∈ vs, v.Ok)
    (hD : ∀ p ∈ D, InDomain p.2) (h : emitValues D line vs = .ok cells) :
    cells.length = vs.length ∧ ∀ x ∈ cells, InDomain x := by
  induction vs generalizing cells with
  | nil => cases h; simp
  | cons v vs ih =>
    simp only [emitValues] at h
    obtain ⟨x, hx, h⟩ := bind_eq_ok h
    obtain ⟨xs, hxs, h⟩ := bind_eq_ok h
    cases h
    obtain ⟨hl, hd⟩ := ih (fun v h => hv v (by simp [h])) hxs
    exact ⟨by simp [hl], by simpa using ⟨resolveValue_inDomain (hv v (by simp)) hD hx, hd⟩⟩

theorem indirectRaw_inDomain {n : Int} (h : InBounds n) : InDomain (indirectRaw n) := by
  simp only [InBounds, Config.totalMemorySize] at h
  simp only [InDomain, indirectRaw, valueMin, valueMax]
  omega

theorem emitOperand_inDomain {b : Bool} {L D : NameTable} {m : Token} {line : Nat} {k : OperandKind} {o : AsmOperand}
    {x : Int} (ho : o.Ok) (hL : ∀ p ∈ L, InDomain p.2) (hD : ∀ p ∈ D, InDomain p.2)
    (h : emitOperand b L D m line k o = .ok x) : InDomain x := by
  cases o with
  | label n =>
    simp only [emitOperand] at h
    split at h
    · rename_i hn; cases h; exact hL _ (lookupName_mem hn)
    · cases h
  | indirect v =>
    simp only [emitOperand] at h
    obtain ⟨n, -, h⟩ := bind_eq_ok h
    split at h
    · rename_i hb; cases h; exact indirectRaw_inDomain hb
    · cases h
  | value v =>
    simp only [emitOperand] at h
    obtain ⟨n, hn, h⟩ := bind_eq_ok h
    split at h
    · cases h
    · cases h; exact resolveValue_inDomain ho hD hn

theorem emitOperands_ok {b : Bool} {L D : NameTable} {m : Token} {line : Nat} {ks : List OperandKind}
    {os : List AsmOperand} {cells : List Int} (hlen : os.length = ks.length) (ho : ∀ o ∈ os, o.Ok)
    (hL : ∀ p ∈ L, InDomain p.2) (hD : ∀ p ∈ D, InDomain p.2)
    (h : emitOperands b L D m line ks os = .ok cells) : cells.length = ks.length ∧ ∀ x ∈ cells, InDomain x := by
  induction ks generalizing os cells with
  | nil => cases os <;> simp [emitOperands] at h hlen; subst h; simp
  | cons k ks ih =>
    cases os with
    | nil => simp at hlen
    | cons o os =>
      simp only [emitOperands] at h
      obtain ⟨x, hx, h⟩ := bind_eq_ok h
      obtain ⟨xs, hxs, h⟩ := bind_eq_ok h
      cases h
      obtain ⟨hl, hd⟩ := ih (by simpa using hlen) (fun o h => ho o (by simp [h])) hxs
      exact ⟨by simp [hl], by simpa using ⟨emitOperand_inDomain (ho o (by simp)) hL hD hx, hd⟩⟩

theorem emitOperands_length {b : Bool} {L D : NameTable} {m : Token} {line : Nat} {ks : List OperandKind}
    {os : List AsmOperand} {cells : List Int} (hlen : os.length = ks.length)
    (h : emitOperands b L D m line ks os = .ok cells) : cells.length = ks.length := by
  induction ks generalizing os cells with
  | nil => cases os <;> simp [emitOperands] at h hlen; subst h; simp
  | cons k ks ih =>
    cases os with
    | nil => simp at hlen
    | cons o os =>
      simp only [emitOperands] at h
      obtain ⟨x, hx, h⟩ := bind_eq_ok h
      obtain ⟨xs, hxs, h⟩ := bind_eq_ok h
      cases h
      simp [ih (by simpa using hlen) hxs]

theorem emitValues_length {D : NameTable} {line : Nat} {vs : List ValueRef} {cells : List Int}
    (h : emitValues D line vs = .ok cells) : cells.length = vs.length := by
  induction vs generalizing cells with
  | nil => cases h; rfl
  | cons v vs ih =>
    simp only [emitValues] at h
    obtain ⟨x, hx, h⟩ := bind_eq_ok h
    obtain ⟨xs, hxs, h⟩ := bind_eq_ok h
    cases h
    simp [ih hxs]

/-- Emit gives as many cells as layout counted. -/
theorem emit_length {b : Bool} {L D : NameTable} {rs : List AsmRecord} {image : List Int}
    (hr : ∀ r ∈ rs, r.body.Ok) (h : emit b L D rs = .ok image) : image.length = totalSize rs := by
  induction rs generalizing D image with
  | nil => cases h; rfl
  | cons r rs ih =>
    have hrs : ∀ r ∈ rs, r.body.Ok := fun x hx => hr x (by simp [hx])
    have h0 := hr r (by simp)
    obtain ⟨body, line⟩ := r
    cases body with
    | label n => simpa [AsmBody.size] using ih hrs h
    | define n v =>
      simp only [emit] at h
      split at h
      · cases h
      · obtain ⟨x, -, h⟩ := bind_eq_ok h
        simpa [AsmBody.size] using ih hrs h
    | data vs =>
      simp only [emit] at h
      obtain ⟨cells, hc, h⟩ := bind_eq_ok h
      obtain ⟨rest, ht, h⟩ := bind_eq_ok h
      cases h
      simp [AsmBody.size, ih hrs ht, emitValues_length hc]
    | instr o os =>
      simp only [emit] at h
      obtain ⟨cells, hc, h⟩ := bind_eq_ok h
      obtain ⟨rest, ht, h⟩ := bind_eq_ok h
      cases h
      simp only [totalSize_cons, AsmBody.size, List.length_cons, List.length_append, ih hrs ht,
        emitOperands_length h0.1 hc, Opcode.arity, List.cons_append]
      omega

theorem opcodeCode_inDomain (o : Opcode) : InDomain o.code := by cases o <;> decide

/-- Emit gives values of the domain only. -/
theorem emit_inDomain {b : Bool} {L D : NameTable} {rs : List AsmRecord} {image : List Int}
    (hr : ∀ r ∈ rs, r.body.Ok) (hL : ∀ p ∈ L, InDomain p.2) (hD : ∀ p ∈ D, InDomain p.2)
    (h : emit b L D rs = .ok image) : ∀ x ∈ image, InDomain x := by
  induction rs generalizing D image with
  | nil => cases h; simp
  | cons r rs ih =>
    have hrs : ∀ r ∈ rs, r.body.Ok := fun x hx => hr x (by simp [hx])
    have h0 := hr r (by simp)
    obtain ⟨body, line⟩ := r
    cases body with
    | label n => exact ih hrs hD h
    | define n v =>
      simp only [emit] at h
      split at h
      · cases h
      · obtain ⟨x, hx, h⟩ := bind_eq_ok h
        exact ih hrs (by simpa using ⟨resolveValue_inDomain h0 hD hx, fun a b h => hD (a, b) h⟩) h
    | data vs =>
      simp only [emit] at h
      obtain ⟨cells, hc, h⟩ := bind_eq_ok h
      obtain ⟨rest, ht, h⟩ := bind_eq_ok h
      cases h
      intro x hx
      rcases List.mem_append.1 hx with hx | hx
      · exact (emitValues_ok h0 hD hc).2 x hx
      · exact ih hrs hD ht x hx
    | instr o os =>
      simp only [emit] at h
      obtain ⟨cells, hc, h⟩ := bind_eq_ok h
      obtain ⟨rest, ht, h⟩ := bind_eq_ok h
      cases h
      intro x hx
      rcases List.mem_append.1 hx with hx | hx
      · rcases List.mem_cons.1 hx with rfl | hx
        · exact opcodeCode_inDomain o
        · exact (emitOperands_ok h0.1 h0.2 hL hD hc).2 x hx
      · exact ih hrs hD ht x hx

/-! ### The whole assembler -/

/-- A successful assembly, pass by pass. -/
theorem assemble_ok {b : Bool} {text : String} {image : List Int} (h : assemble b text = .ok image) :
    ∃ records labels, parse b text.toList = .ok records ∧ layout 1000 [] records = .ok labels ∧
      emit b labels [] records = .ok image ∧ image.length ≤ 1000 := by
  unfold assemble at h
  obtain ⟨records, hr, h⟩ := bind_eq_ok h
  obtain ⟨labels, hl, h⟩ := bind_eq_ok h
  obtain ⟨im, he, h⟩ := bind_eq_ok h
  split at h
  · cases h; exact ⟨records, labels, hr, hl, he, by assumption⟩
  · cases h

end Sys2Proof.Machine
end

