-- ==== Sys2Proof/Laws/Commands.lean ====
section
/-! SUPPORT. What a step by command, a turn of the run loop, the run loop and a sequence of events do, one lemma per case. -/

namespace Sys2Proof.Machine

variable {s t : State}

/-- A step by command that answers a next state. -/
theorem stepOnce_next {inputs : InputVector} (h : step { s with input := inputs } = .next t) :
    stepOnce inputs s = (t, stepReply t) := by
  simp only [stepOnce, h]

/-- A step by command is a step that answered a next state, or it is rejected and changes nothing. -/
theorem stepOnce_cases (inputs : InputVector) (s : State) :
    (∃ t, step { s with input := inputs } = .next t ∧ stepOnce inputs s = (t, stepReply t)) ∨
      stepOnce inputs s = (s, .rejected) := by
  rcases h : step { s with input := inputs } with t | f | r
  · exact .inl ⟨t, rfl, stepOnce_next h⟩
  · exact .inr (by simp only [stepOnce, h])
  · exact .inr (by simp only [stepOnce, h])

theorem stepReply_fault {f : FaultRecord} (h : t.fault = some f) : stepReply t = .runtimeError f.cause f.info := by
  simp only [stepReply, h]

theorem stepReply_done (h : t.fault = none) : stepReply t = .done := by
  simp only [stepReply, h]

/-- A turn with `running` set is a step with the presented input vector. -/
theorem loopStep_running (h : s.running = true) : loopStep s = stepOnce s.input s := if_pos h

/-- A turn with `running` clear does nothing. -/
theorem loopStep_stopped (h : s.running = false) : loopStep s = (s, .done) := by
  simp only [loopStep, h, Bool.false_eq_true, if_false]

@[simp] theorem runLoop_zero (s : State) : runLoop 0 s = (s, []) := rfl

/-- The loop ends at a state with `running` clear. -/
theorem runLoop_stopped (n : Nat) (h : s.running = false) : runLoop n s = (s, []) := by
  cases n <;> simp [runLoop, h]

/-- With `running` set the loop takes one turn and goes on. -/
theorem runLoop_succ (n : Nat) (h : s.running = true) :
    runLoop (n + 1) s =
      ((runLoop n (loopStep s).1).1, (loopStep s).2 :: (runLoop n (loopStep s).1).2) := by
  rw [runLoop, if_pos h]

@[simp] theorem applyEvents_nil (s : State) : applyEvents [] s = (s, []) := rfl

@[simp] theorem applyEvents_cons_state (e : Event) (es : List Event) (s : State) :
    (applyEvents (e :: es) s).1 = (applyEvents es (applyEvent e s).1).1 := rfl

@[simp] theorem applyEvents_cons_replies (e : Event) (es : List Event) (s : State) :
    (applyEvents (e :: es) s).2 = (applyEvent e s).2 :: (applyEvents es (applyEvent e s).1).2 := rfl

end Sys2Proof.Machine
end

