-- ==== Sys2Proof/Laws/Memory.lean ====
section
/-! SUPPORT. Memory: read after write, and the canonical form that every operation keeps. -/

namespace Sys2Proof.Machine

@[simp] theorem Memory.read_nil (a : Nat) : Memory.read [] a = 0 := rfl

/-- An address below every listed one reads as the background. -/
theorem Memory.read_of_lt (m : Memory) (a : Nat) (h : ∀ p ∈ m, a < p.1) : Memory.read m a = 0 := by
  induction m with
  | nil => rfl
  | cons p m ih =>
    have hp := h p (by simp)
    simp only [Memory.read]
    rw [if_neg (by omega)]
    exact ih fun q hq => h q (by simp [hq])

/-- The addresses of a written memory: those listed before, and perhaps the one written. -/
theorem Memory.mem_write {m : Memory} {a : Nat} {v : Int} {p : Nat × Int} (h : p ∈ Memory.write m a v) :
    p ∈ m ∨ (p = (a, v) ∧ v ≠ 0) := by
  induction m with
  | nil =>
    simp only [Memory.write] at h
    split at h <;> simp_all
  | cons q m ih =>
    obtain ⟨b, w⟩ := q
    simp only [Memory.write] at h
    split at h
    · split at h
      · exact .inl h
      · rcases List.mem_cons.1 h with h | h
        · exact .inr ⟨h, by assumption⟩
        · exact .inl h
    · split at h
      · split at h
        · exact .inl (by simp [h])
        · rcases List.mem_cons.1 h with h | h
          · exact .inr ⟨h, by assumption⟩
          · exact .inl (by simp [h])
      · rcases List.mem_cons.1 h with h | h
        · exact .inl (by simp [h])
        · rcases ih h with h | h
          · exact .inl (by simp [h])
          · exact .inr h

/-- Addresses stay strictly rising. -/
theorem Memory.write_sorted {m : Memory} (h : m.Pairwise fun p q => p.1 < q.1) (a : Nat) (v : Int) :
    (Memory.write m a v).Pairwise fun p q => p.1 < q.1 := by
  induction m with
  | nil => simp only [Memory.write]; split <;> simp
  | cons p m ih =>
    obtain ⟨b, w⟩ := p
    obtain ⟨hb, hm⟩ := List.pairwise_cons.1 h
    simp only [Memory.write]
    split
    · rename_i hab
      split
      · exact h
      · refine List.pairwise_cons.2 ⟨fun q hq => ?_, h⟩
        rcases List.mem_cons.1 hq with rfl | hq
        · exact hab
        · exact Nat.lt_trans hab (hb q hq)
    · split
      · rename_i hab
        subst hab
        split
        · exact hm
        · exact List.pairwise_cons.2 ⟨hb, hm⟩
      · rename_i h1 h2
        refine List.pairwise_cons.2 ⟨fun q hq => ?_, ih hm⟩
        rcases Memory.mem_write hq with hq | ⟨rfl, -⟩
        · exact hb q hq
        · show b < a; omega

/-- A write inside memory of a value in the domain keeps the canonical form. -/
theorem Memory.write_wf {m : Memory} (h : Memory.wf m) {a : Nat} {v : Int} (ha : (a : Int) < Config.totalMemorySize)
    (hv : InDomain v) : Memory.wf (Memory.write m a v) := by
  refine ⟨Memory.write_sorted h.1 a v, fun p hp => ?_⟩
  rcases Memory.mem_write hp with hp | ⟨rfl, h0⟩
  · exact h.2 p hp
  · exact ⟨ha, h0, hv⟩

/-- Read after write, the written cell. -/
theorem Memory.read_write_same {m : Memory} (h : m.Pairwise fun p q => p.1 < q.1) (a : Nat) (v : Int) :
    Memory.read (Memory.write m a v) a = v := by
  induction m with
  | nil => simp only [Memory.write]; split <;> simp_all [Memory.read]
  | cons p m ih =>
    obtain ⟨b, w⟩ := p
    obtain ⟨hb, hm⟩ := List.pairwise_cons.1 h
    simp only [Memory.write]
    split
    · rename_i hab
      split
      · rename_i hv
        rw [hv]
        exact Memory.read_of_lt _ _ fun q hq => by
          rcases List.mem_cons.1 hq with rfl | hq
          · exact hab
          · exact Nat.lt_trans hab (hb q hq)
      · simp [Memory.read]
    · split
      · rename_i hab
        subst hab
        split
        · rename_i hv
          rw [hv]
          exact Memory.read_of_lt _ _ hb
        · simp [Memory.read]
      · rename_i h1 h2
        simp only [Memory.read, if_neg h2]
        exact ih hm

/-- Read after write, any other cell. -/
theorem Memory.read_write_other (m : Memory) {a c : Nat} (h : c ≠ a) (v : Int) :
    Memory.read (Memory.write m a v) c = Memory.read m c := by
  induction m with
  | nil => simp only [Memory.write]; split <;> simp [Memory.read, h]
  | cons p m ih =>
    obtain ⟨b, w⟩ := p
    simp only [Memory.write]
    split
    · split <;> simp [Memory.read, h]
    · split
      · rename_i hab
        subst hab
        split <;> simp [Memory.read, h]
      · simp only [Memory.read, ih]

/-- Every cell of a canonical memory lies in the domain. -/
theorem Memory.read_inDomain {m : Memory} (h : Memory.wf m) (a : Nat) : InDomain (Memory.read m a) := by
  obtain ⟨-, h⟩ := h
  induction m with
  | nil => simp [Memory.read, InDomain]
  | cons p m ih =>
    obtain ⟨b, w⟩ := p
    simp only [Memory.read]
    split
    · exact (h (b, w) (by simp)).2.2
    · exact ih fun q hq => h q (by simp [hq])

/-- Reading a cell that consecutive writes leave alone. -/
theorem Memory.read_writeList_other (m : Memory) (a : Nat) (vs : List Int) {c : Nat} (h : c < a ∨ a + vs.length ≤ c) :
    Memory.read (Memory.writeList m a vs) c = Memory.read m c := by
  induction vs generalizing m a with
  | nil => rfl
  | cons v vs ih =>
    simp only [List.length_cons] at h
    rw [Memory.writeList, ih _ _ (by omega), Memory.read_write_other _ (by omega)]

/-- Consecutive writes inside memory keep the canonical form. -/
theorem Memory.writeList_wf {m : Memory} (h : Memory.wf m) {a : Nat} {vs : List Int}
    (ha : (a : Int) + vs.length ≤ Config.totalMemorySize) (hv : ∀ v ∈ vs, InDomain v) :
    Memory.wf (Memory.writeList m a vs) := by
  induction vs generalizing m a with
  | nil => exact h
  | cons v vs ih =>
    simp only [List.length_cons, Nat.cast_add, Nat.cast_one] at ha
    refine ih (Memory.write_wf h (by omega) (hv v (by simp))) ?_ fun w hw => hv w (by simp [hw])
    push_cast; omega

/-- Reading a cell that consecutive writes wrote. -/
theorem Memory.read_writeList_same {m : Memory} (h : m.Pairwise fun p q => p.1 < q.1) (a : Nat) (vs : List Int) {k : Nat}
    (hk : k < vs.length) : Memory.read (Memory.writeList m a vs) (a + k) = vs[k] := by
  induction vs generalizing m a k with
  | nil => simp at hk
  | cons v vs ih =>
    cases k with
    | zero =>
      rw [Memory.writeList, Memory.read_writeList_other _ _ _ (by omega)]
      exact Memory.read_write_same h a v
    | succ k =>
      have := ih (Memory.write_sorted h a v) (a + 1) (k := k) (by simpa using hk)
      rw [Memory.writeList, show a + (k + 1) = a + 1 + k by omega, this]
      rfl

@[simp] theorem Memory.length_readList (m : Memory) (a n : Nat) : (Memory.readList m a n).length = n := by
  induction n generalizing a with
  | zero => rfl
  | succ n ih => simp [Memory.readList, ih]

/-- Two canonical memories that read alike are the same list. -/
theorem Memory.eq_of_read {m n : Memory} (hm : Memory.wf m) (hn : Memory.wf n)
    (h : ∀ a, Memory.read m a = Memory.read n a) : m = n := by
  obtain ⟨sm, hm⟩ := hm
  obtain ⟨sn, hn⟩ := hn
  induction m generalizing n with
  | nil =>
    cases n with
    | nil => rfl
    | cons q n =>
      have h1 := h q.1
      have h2 := (hn q (by simp)).2.1
      simp [Memory.read] at h1 h2
      exact absurd h1.symm h2
  | cons p m ih =>
    obtain ⟨b, w⟩ := p
    obtain ⟨hb, hm'⟩ := List.pairwise_cons.1 sm
    cases n with
    | nil =>
      have h1 := h b
      have h2 := (hm (b, w) (by simp)).2.1
      simp [Memory.read] at h1 h2
      exact absurd h1 h2
    | cons q n =>
      obtain ⟨c, x⟩ := q
      obtain ⟨hc, hn'⟩ := List.pairwise_cons.1 sn
      have hw := (hm (b, w) (by simp)).2.1
      have hx := (hn (c, x) (by simp)).2.1
      simp only [Memory.background] at hw hx
      have key : b = c := by
        rcases Nat.lt_trichotomy b c with hlt | rfl | hlt
        · have h1 := h b
          rw [Memory.read_of_lt ((c, x) :: n) b fun q hq => by
            rcases List.mem_cons.1 hq with rfl | hq
            · exact hlt
            · exact Nat.lt_trans hlt (hc q hq)] at h1
          simp only [Memory.read, if_pos] at h1
          exact absurd h1 hw
        · rfl
        · have h1 := h c
          rw [Memory.read_of_lt ((b, w) :: m) c fun q hq => by
            rcases List.mem_cons.1 hq with rfl | hq
            · exact hlt
            · exact Nat.lt_trans hlt (hb q hq)] at h1
          simp only [Memory.read, if_pos] at h1
          exact absurd h1.symm hx
      subst key
      have hwx : w = x := by simpa [Memory.read] using h b
      subst hwx
      congr 1
      refine ih (fun a => ?_) hm' (fun p hp => hm p (by simp [hp])) hn' (fun p hp => hn p (by simp [hp]))
      by_cases ha : a = b
      · subst ha
        rw [Memory.read_of_lt _ _ hb, Memory.read_of_lt _ _ hc]
      · simpa [Memory.read, ha] using h a

end Sys2Proof.Machine
end

