-- ==== Sys2Proof/Laws/State.lean ====
section
/-! SUPPORT. One lemma per field per state update, so that no proof unfolds a record update. -/

namespace Sys2Proof.Machine

variable (s : State)

@[simp] theorem State.withMem_mem (m : Memory) : (s.withMem m).mem = m := rfl
@[simp] theorem State.withMem_pc (m : Memory) : (s.withMem m).pc = s.pc := rfl
@[simp] theorem State.withMem_running (m : Memory) : (s.withMem m).running = s.running := rfl
@[simp] theorem State.withMem_halted (m : Memory) : (s.withMem m).halted = s.halted := rfl
@[simp] theorem State.withMem_fault (m : Memory) : (s.withMem m).fault = s.fault := rfl
@[simp] theorem State.withMem_indirectOperands (m : Memory) : (s.withMem m).indirectOperands = s.indirectOperands := rfl
@[simp] theorem State.withMem_input (m : Memory) : (s.withMem m).input = s.input := rfl
@[simp] theorem State.withMem_inputClock (m : Memory) : (s.withMem m).inputClock = s.inputClock := rfl
@[simp] theorem State.withMem_cycleDelayMs (m : Memory) : (s.withMem m).cycleDelayMs = s.cycleDelayMs := rfl

@[simp] theorem State.withPc_mem (p : Int) : (s.withPc p).mem = s.mem := rfl
@[simp] theorem State.withPc_pc (p : Int) : (s.withPc p).pc = p := rfl
@[simp] theorem State.withPc_running (p : Int) : (s.withPc p).running = s.running := rfl
@[simp] theorem State.withPc_halted (p : Int) : (s.withPc p).halted = s.halted := rfl
@[simp] theorem State.withPc_fault (p : Int) : (s.withPc p).fault = s.fault := rfl
@[simp] theorem State.withPc_indirectOperands (p : Int) : (s.withPc p).indirectOperands = s.indirectOperands := rfl
@[simp] theorem State.withPc_input (p : Int) : (s.withPc p).input = s.input := rfl
@[simp] theorem State.withPc_inputClock (p : Int) : (s.withPc p).inputClock = s.inputClock := rfl
@[simp] theorem State.withPc_cycleDelayMs (p : Int) : (s.withPc p).cycleDelayMs = s.cycleDelayMs := rfl
@[simp] theorem State.withPc_withPc (p q : Int) : (s.withPc p).withPc q = s.withPc q := rfl
@[simp] theorem State.withPc_cell (p a : Int) : (s.withPc p).cell a = s.cell a := rfl
@[simp] theorem State.withPc_self : s.withPc s.pc = s := rfl

@[simp] theorem State.withFlags_mem (r h : Bool) : (s.withFlags r h).mem = s.mem := rfl
@[simp] theorem State.withFlags_pc (r h : Bool) : (s.withFlags r h).pc = s.pc := rfl
@[simp] theorem State.withFlags_running (r h : Bool) : (s.withFlags r h).running = r := rfl
@[simp] theorem State.withFlags_halted (r h : Bool) : (s.withFlags r h).halted = h := rfl
@[simp] theorem State.withFlags_fault (r h : Bool) : (s.withFlags r h).fault = s.fault := rfl
@[simp] theorem State.withFlags_indirectOperands (r h : Bool) :
    (s.withFlags r h).indirectOperands = s.indirectOperands := rfl
@[simp] theorem State.withFlags_input (r h : Bool) : (s.withFlags r h).input = s.input := rfl
@[simp] theorem State.withFlags_inputClock (r h : Bool) : (s.withFlags r h).inputClock = s.inputClock := rfl
@[simp] theorem State.withFlags_cycleDelayMs (r h : Bool) : (s.withFlags r h).cycleDelayMs = s.cycleDelayMs := rfl

@[simp] theorem State.withFault_mem (f : Option FaultRecord) : (s.withFault f).mem = s.mem := rfl
@[simp] theorem State.withFault_pc (f : Option FaultRecord) : (s.withFault f).pc = s.pc := rfl
@[simp] theorem State.withFault_running (f : Option FaultRecord) : (s.withFault f).running = s.running := rfl
@[simp] theorem State.withFault_halted (f : Option FaultRecord) : (s.withFault f).halted = s.halted := rfl
@[simp] theorem State.withFault_fault (f : Option FaultRecord) : (s.withFault f).fault = f := rfl
@[simp] theorem State.withFault_indirectOperands (f : Option FaultRecord) :
    (s.withFault f).indirectOperands = s.indirectOperands := rfl
@[simp] theorem State.withFault_input (f : Option FaultRecord) : (s.withFault f).input = s.input := rfl
@[simp] theorem State.withFault_inputClock (f : Option FaultRecord) : (s.withFault f).inputClock = s.inputClock := rfl
@[simp] theorem State.withFault_cycleDelayMs (f : Option FaultRecord) :
    (s.withFault f).cycleDelayMs = s.cycleDelayMs := rfl

@[simp] theorem State.withInput_mem (i : InputVector) (n : Nat) : (s.withInput i n).mem = s.mem := rfl
@[simp] theorem State.withInput_pc (i : InputVector) (n : Nat) : (s.withInput i n).pc = s.pc := rfl
@[simp] theorem State.withInput_running (i : InputVector) (n : Nat) : (s.withInput i n).running = s.running := rfl
@[simp] theorem State.withInput_halted (i : InputVector) (n : Nat) : (s.withInput i n).halted = s.halted := rfl
@[simp] theorem State.withInput_fault (i : InputVector) (n : Nat) : (s.withInput i n).fault = s.fault := rfl
@[simp] theorem State.withInput_indirectOperands (i : InputVector) (n : Nat) :
    (s.withInput i n).indirectOperands = s.indirectOperands := rfl
@[simp] theorem State.withInput_input (i : InputVector) (n : Nat) : (s.withInput i n).input = i := rfl
@[simp] theorem State.withInput_inputClock (i : InputVector) (n : Nat) : (s.withInput i n).inputClock = n := rfl
@[simp] theorem State.withInput_cycleDelayMs (i : InputVector) (n : Nat) :
    (s.withInput i n).cycleDelayMs = s.cycleDelayMs := rfl

@[simp] theorem State.store_mem (a v : Int) : (s.store a v).mem = Memory.write s.mem a.toNat v := rfl
@[simp] theorem State.store_pc (a v : Int) : (s.store a v).pc = s.pc := rfl
@[simp] theorem State.store_running (a v : Int) : (s.store a v).running = s.running := rfl
@[simp] theorem State.store_halted (a v : Int) : (s.store a v).halted = s.halted := rfl
@[simp] theorem State.store_fault (a v : Int) : (s.store a v).fault = s.fault := rfl
@[simp] theorem State.store_indirectOperands (a v : Int) :
    (s.store a v).indirectOperands = s.indirectOperands := rfl
@[simp] theorem State.store_input (a v : Int) : (s.store a v).input = s.input := rfl
@[simp] theorem State.store_inputClock (a v : Int) : (s.store a v).inputClock = s.inputClock := rfl
@[simp] theorem State.store_cycleDelayMs (a v : Int) : (s.store a v).cycleDelayMs = s.cycleDelayMs := rfl

variable (e : Raised) (start : Int)

@[simp] theorem enterFault_mem : (enterFault e start s).mem = s.mem := rfl
@[simp] theorem enterFault_pc : (enterFault e start s).pc = s.pc := rfl
@[simp] theorem enterFault_running : (enterFault e start s).running = false := rfl
@[simp] theorem enterFault_halted : (enterFault e start s).halted = s.halted := rfl
@[simp] theorem enterFault_fault :
    (enterFault e start s).fault = some { cause := e.cause, atPc := start, info := e.info } := rfl
@[simp] theorem enterFault_indirectOperands : (enterFault e start s).indirectOperands = s.indirectOperands := rfl
@[simp] theorem enterFault_input : (enterFault e start s).input = s.input := rfl
@[simp] theorem enterFault_inputClock : (enterFault e start s).inputClock = s.inputClock := rfl
@[simp] theorem enterFault_cycleDelayMs : (enterFault e start s).cycleDelayMs = s.cycleDelayMs := rfl

@[simp] theorem refreshInput_mem :
    (refreshInput s).mem = Memory.writeList s.mem Config.inputStart.toNat s.input.values := rfl
@[simp] theorem refreshInput_pc : (refreshInput s).pc = s.pc := rfl
@[simp] theorem refreshInput_running : (refreshInput s).running = s.running := rfl
@[simp] theorem refreshInput_halted : (refreshInput s).halted = s.halted := rfl
@[simp] theorem refreshInput_fault : (refreshInput s).fault = s.fault := rfl
@[simp] theorem refreshInput_indirectOperands : (refreshInput s).indirectOperands = s.indirectOperands := rfl
@[simp] theorem refreshInput_input : (refreshInput s).input = hostInput s.inputClock := rfl
@[simp] theorem refreshInput_inputClock : (refreshInput s).inputClock = s.inputClock + 1 := rfl
@[simp] theorem refreshInput_cycleDelayMs : (refreshInput s).cycleDelayMs = s.cycleDelayMs := rfl

end Sys2Proof.Machine
end

