-- ==== Sys2Proof/Laws/Ops.lean ====
section
/-! SUPPORT. One lemma for each shared operation, saying once everything it can do. -/

namespace Sys2Proof.Machine

variable {s t : State} {a v : Int} {e : Raised}

/-! ### Access -/

theorem memRead_ok (h : InBounds a) : memRead s a = .ok (s.cell a) := if_pos h

theorem memRead_error (h : ¬InBounds a) : memRead s a = .error { cause := .outOfBounds, info := a } := if_neg h

/-- What a read can answer. -/
theorem memRead_cases (s : State) (a : Int) :
    (InBounds a ∧ memRead s a = .ok (s.cell a)) ∨
      (¬InBounds a ∧ memRead s a = .error { cause := .outOfBounds, info := a }) := by
  by_cases h : InBounds a
  · exact .inl ⟨h, memRead_ok h⟩
  · exact .inr ⟨h, memRead_error h⟩

theorem memRead_eq_ok : memRead s a = .ok v ↔ InBounds a ∧ v = s.cell a := by
  rcases memRead_cases s a with ⟨h, hr⟩ | ⟨h, hr⟩ <;> simp only [hr] <;> grind

theorem memWrite_ok (h : InBounds a) (hv : InDomain v) : memWrite s a v = .ok (s.store a v) := by
  rw [memWrite, if_pos h, if_pos hv]

theorem memWrite_outOfBounds (h : ¬InBounds a) : memWrite s a v = .error { cause := .outOfBounds, info := a } := if_neg h

theorem memWrite_invalidValue (h : InBounds a) (hv : ¬InDomain v) :
    memWrite s a v = .error { cause := .invalidValue, info := v } := by
  rw [memWrite, if_pos h, if_neg hv]

theorem memWrite_eq_ok : memWrite s a v = .ok t ↔ InBounds a ∧ InDomain v ∧ t = s.store a v := by
  by_cases h : InBounds a
  · by_cases hv : InDomain v
    · rw [memWrite_ok h hv]; grind
    · rw [memWrite_invalidValue h hv]; grind
  · rw [memWrite_outOfBounds h]; grind

/-- What `EA` can answer. -/
theorem effectiveAddress_cases (s : State) (raw : Int) :
    effectiveAddress s raw = .ok raw ∨
      (s.indirectOperands = true ∧ InIndirectRange raw ∧ effectiveAddress s raw = .ok (s.cell (-raw - 1))) := by
  unfold effectiveAddress
  split
  · rename_i h
    refine .inr ⟨h.1, h.2, memRead_ok ?_⟩
    have h1 := h.2.1
    have h2 := h.2.2
    simp only [Config.totalMemorySize] at h1
    exact ⟨by omega, by simp only [Config.totalMemorySize]; omega⟩
  · exact .inl rfl

/-- The indirect encoding always names a cell, so `EA` never fails. -/
theorem effectiveAddress_total (s : State) (raw : Int) : ∃ p, effectiveAddress s raw = .ok p := by
  rcases effectiveAddress_cases s raw with h | ⟨-, -, h⟩ <;> exact ⟨_, h⟩

/-! ### Store -/

theorem cell_store (hm : Memory.wf s.mem) (a v : Int) : (s.store a v).cell a = v :=
  Memory.read_write_same hm.1 _ _

/-- Every cell of a canonical memory lies in the domain (rule R39). -/
theorem cell_inDomain (hm : Memory.wf s.mem) (a : Int) : InDomain (s.cell a) := Memory.read_inDomain hm _

theorem read_store_other (ha : 0 ≤ a) {b : Nat} (h : (b : Int) ≠ a) (v : Int) :
    Memory.read (s.store a v).mem b = Memory.read s.mem b :=
  Memory.read_write_other _ (by omega) _

/-- A store with its checks passed, as the outcome of an instruction. -/
theorem endsInStore_of_eq {r : Host.Outcome State Fault Refusal} (hs : s.mem.Pairwise fun p q => p.1 < q.1)
    (ha : 0 ≤ a) (h : r = .next (s.store a v)) : EndsInStore s a v r :=
  ⟨s.store a v, h, Memory.read_write_same hs _ _, fun _ hb => read_store_other ha hb v, rfl, ⟨rfl, rfl, rfl⟩,
    ⟨rfl, rfl, rfl, rfl⟩⟩

/-- A raise in an instruction, as the outcome of the instruction. -/
theorem endsInFault_of_eq {o : Opcode} {cause : RuntimeError} {info : Int} {r : Host.Outcome State Fault Refusal}
    (h : r = .next (enterFault { cause := cause, info := info } (s.pc - o.length) s)) : EndsInFault o s cause info r :=
  ⟨_, h, rfl, rfl, rfl, fun _ => rfl, rfl, ⟨rfl, rfl, rfl, rfl⟩⟩

/-! ### How an instruction ends -/

/-- What `settle` can answer: always a next state. -/
theorem settle_cases (o : Opcode) (s : State) (r : Except Raised State) :
    (∃ t, r = .ok t ∧ settle o s r = .next t) ∨
      (∃ e, r = .error e ∧ settle o s r = .next (enterFault e (s.pc - o.length) s)) := by
  cases r with
  | ok t => exact .inl ⟨t, rfl, rfl⟩
  | error e => exact .inr ⟨e, rfl, rfl⟩

theorem except_bind_eq_ok {α β : Type} {x : Except Raised α} {f : α → Except Raised β} {b : β} :
    (x >>= f) = .ok b ↔ ∃ a, x = .ok a ∧ f a = .ok b := by
  cases x with
  | ok a => exact ⟨fun h => ⟨a, rfl, h⟩, fun ⟨_, h, h'⟩ => by cases h; exact h'⟩
  | error e => exact ⟨fun h => (nomatch h), fun ⟨_, h, _⟩ => (nomatch h)⟩

/-- What an instruction `a b result` on two addresses can do when it completes. -/
theorem computeAddresses_ok {f : Int → Int → Except Raised Int} {a b r : Int}
    (h : computeAddresses f a b r s = .ok t) :
    ∃ pa pb pr w, effectiveAddress s a = .ok pa ∧ effectiveAddress s b = .ok pb ∧ effectiveAddress s r = .ok pr ∧
      InBounds pa ∧ InBounds pb ∧ f (s.cell pa) (s.cell pb) = .ok w ∧ InBounds pr ∧ InDomain w ∧ t = s.store pr w := by
  simp only [computeAddresses, except_bind_eq_ok, memRead_eq_ok, memWrite_eq_ok] at h
  obtain ⟨pa, ha, pb, hb, pr, hr, _, ⟨hba, rfl⟩, _, ⟨hbb, rfl⟩, w, hf, hbr, hw, rfl⟩ := h
  exact ⟨pa, pb, pr, w, ha, hb, hr, hba, hbb, hf, hbr, hw, rfl⟩

/-- What an instruction `a b result` with a constant can do when it completes. -/
theorem computeConstant_ok {f : Int → Int → Except Raised Int} {a b r : Int}
    (h : computeConstant f a b r s = .ok t) :
    ∃ pa pr w, effectiveAddress s a = .ok pa ∧ effectiveAddress s r = .ok pr ∧
      InBounds pa ∧ f (s.cell pa) b = .ok w ∧ InBounds pr ∧ InDomain w ∧ t = s.store pr w := by
  simp only [computeConstant, constantValue, except_bind_eq_ok, memRead_eq_ok, memWrite_eq_ok] at h
  obtain ⟨pa, ha, pr, hr, _, ⟨hba, rfl⟩, w, hf, hbr, hw, rfl⟩ := h
  exact ⟨pa, pr, w, ha, hr, hba, hf, hbr, hw, rfl⟩

/-- What a branch on two addresses can do when it completes. -/
theorem branchAddresses_ok {test : Int → Int → Bool} {a b l : Int} (h : branchAddresses test a b l s = .ok t) :
    ∃ pa pb, effectiveAddress s a = .ok pa ∧ effectiveAddress s b = .ok pb ∧ InBounds pa ∧ InBounds pb ∧
      t = if test (s.cell pa) (s.cell pb) then s.withPc l else s := by
  simp only [branchAddresses, except_bind_eq_ok, memRead_eq_ok, branchTo, labelValue] at h
  obtain ⟨pa, ha, pb, hb, _, ⟨hba, rfl⟩, _, ⟨hbb, rfl⟩, h⟩ := h
  exact ⟨pa, pb, ha, hb, hba, hbb, (Except.ok.inj h).symm⟩

/-- What a branch against a constant can do when it completes. -/
theorem branchConstant_ok {test : Int → Int → Bool} {a b l : Int} (h : branchConstant test a b l s = .ok t) :
    ∃ pa, effectiveAddress s a = .ok pa ∧ InBounds pa ∧ t = if test (s.cell pa) b then s.withPc l else s := by
  simp only [branchConstant, constantValue, except_bind_eq_ok, memRead_eq_ok, branchTo, labelValue] at h
  obtain ⟨pa, ha, _, ⟨hba, rfl⟩, h⟩ := h
  exact ⟨pa, ha, hba, (Except.ok.inj h).symm⟩

/-! ### Control state -/

/-- The legal flags are exactly those that give a control state (rule R24). -/
theorem legalFlags_iff : LegalFlags s ↔ controlState s ≠ none := by
  unfold LegalFlags controlState
  cases s.running <;> cases s.halted <;> cases s.fault <;> simp

end Sys2Proof.Machine
end

