-- ==== Sys2Proof/Laws/Fetch.lean ====
section
/-! SUPPORT. What the input refresh and the fetch can do. -/

namespace Sys2Proof.Machine

variable {s t : State}

@[simp] theorem InputVector.length_values (i : InputVector) : i.values.length = 9 := rfl

/-- Every value the host supplies lies in the domain. -/
theorem hostPort_inDomain (n p : Nat) : InDomain (hostPort n p) := by
  have := (Config.hostValue n p).isLt
  simp only [InDomain, hostPort, valueMin, valueMax]
  omega

theorem hostInput_inDomain (n : Nat) : (hostInput n).InDomain := by
  intro v hv
  simp only [InputVector.values, hostInput, List.mem_cons, List.not_mem_nil, or_false] at hv
  rcases hv with rfl | rfl | rfl | rfl | rfl | rfl | rfl | rfl | rfl <;> exact hostPort_inDomain _ _

/-- The refresh leaves every cell that is not an input cell alone. -/
theorem read_refreshInput_other {a : Nat} (h : ¬InputCell a) :
    Memory.read (refreshInput s).mem a = Memory.read s.mem a := by
  refine Memory.read_writeList_other _ _ _ ?_
  simp only [InputCell, Config.inputStart, Config.keycodeDepth] at h
  simp only [Config.inputStart, InputVector.length_values]
  omega

/-- The refresh keeps the canonical form. -/
theorem refreshInput_wf (h : Memory.wf s.mem) (hi : s.input.InDomain) : Memory.wf (refreshInput s).mem :=
  Memory.writeList_wf h (by simp [InputVector.values]) hi

theorem fetchCell_ok (h : InProgram s.pc) : fetchCell s = .ok (s.cell s.pc, s.withPc (s.pc + 1)) := if_pos h

theorem fetchCell_error (h : ¬InProgram s.pc) :
    fetchCell s = .error { cause := .programCounterOutOfRange, info := s.pc } := if_neg h

/-- Fetches that all stay in program memory read the cells in order and advance `pc`. -/
theorem fetchCells_ok (n : Nat) (h : ∀ k : Nat, k < n → InProgram (s.pc + k)) :
    fetchCells n s = .ok (Memory.readList s.mem s.pc.toNat n, s.withPc (s.pc + n)) := by
  induction n generalizing s with
  | zero => simp [fetchCells, Memory.readList]
  | succ n ih =>
    have h0 : InProgram s.pc := by simpa using h 0 (by omega)
    have hn : ∀ k : Nat, k < n → InProgram ((s.withPc (s.pc + 1)).pc + k) := fun k hk => by
      have := h (k + 1) (by omega)
      rw [State.withPc_pc, add_assoc, add_comm 1]
      exact_mod_cast this
    have hp : (s.pc + 1).toNat = s.pc.toNat + 1 := by
      have := h0.1
      simp only [Config.programStart] at this
      omega
    simp only [fetchCells, fetchCell_ok h0, ih hn, State.withPc_mem, State.withPc_pc, State.withPc_withPc, hp,
      Memory.readList, State.cell]
    rw [show s.pc + ((n + 1 : Nat) : Int) = s.pc + 1 + n by push_cast; ring]

/-- Fetches that reach the end of program memory stop there. -/
theorem fetchCells_error (n : Nat) (hs : Config.programStart ≤ s.pc) (hle : s.pc ≤ Config.programEnd)
    (h : Config.programEnd < s.pc + n) :
    ∃ e p, fetchCells n s = .error (e, s.withPc p) ∧ p = Config.programEnd ∧
      e = { cause := .programCounterOutOfRange, info := p } := by
  induction n generalizing s with
  | zero => simp only [Config.programEnd] at h hle; omega
  | succ n ih =>
    simp only [Config.programStart, Config.programEnd] at hs hle h ih ⊢
    by_cases hp : InProgram s.pc
    · have hlt := hp.2
      simp only [Config.programEnd] at hlt
      push_cast at h
      obtain ⟨e, p, hf, hq, he⟩ := ih (s := s.withPc (s.pc + 1)) (by simp only [State.withPc_pc]; omega)
        (by simp only [State.withPc_pc]; omega) (by simp only [State.withPc_pc]; omega)
      exact ⟨e, p, by simp only [fetchCells, fetchCell_ok hp, hf, State.withPc_withPc], hq, he⟩
    · have heq : s.pc = 2000 := by
        simp only [InProgram, Config.programStart, Config.programEnd, not_and, not_lt] at hp
        have := hp hs
        omega
      exact ⟨_, s.pc, by simp only [fetchCells, fetchCell_error hp, State.withPc_self], heq, rfl⟩

end Sys2Proof.Machine
end

