-- ==== Sys2Proof/Laws/Exec.lean ====
section
/-! SUPPORT. Everything an instruction, a cycle and a step can do, each said once. -/

namespace Sys2Proof.Machine

variable {s t : State}

/-- How an instruction can end: the five effects of phase E4 (rule R77), or the fault state. -/
inductive Ending (i : Instr) (s : State) : State → Prop
  /-- One cell stored, at the address the meaning computes. -/
  | stored (a v : Int) : storeAddress i s = some a → transferTarget i = none → InBounds a → InDomain v →
      Ending i s (s.store a v)
  /-- Control transferred to the label operand. -/
  | transferred (l : Int) : transferTarget i = some l → storeAddress i s = none → Ending i s (s.withPc l)
  /-- Nothing done: a branch not taken, or `data`. -/
  | unchanged : storeAddress i s = none → i ≠ .breakRun → i ≠ .halt → Ending i s s
  /-- Paused by `break`. -/
  | paused : i = .breakRun → Ending i s (pauseFlags s)
  /-- Stopped by `halt`. -/
  | stopped : i = .halt → Ending i s (haltFlags s)
  /-- In the fault state. -/
  | faulted (e : Raised) : i ≠ .breakRun → i ≠ .halt → Ending i s (enterFault e (s.pc - i.length) s)

theorem ending_computeAddresses {i : Instr} {o : Opcode} {f : Int → Int → Except Raised Int} {a b r : Int}
    (h : exec i s = settle o s (computeAddresses f a b r s)) (ho : i.opcode = o)
    (hs : storeAddress i s = (effectiveAddress s r).toOption) (ht : transferTarget i = none)
    (hn : i ≠ .breakRun ∧ i ≠ .halt) : ∃ t, exec i s = .next t ∧ Ending i s t := by
  rcases settle_cases o s (computeAddresses f a b r s) with ⟨t, hc, hr⟩ | ⟨e, -, hr⟩
  · obtain ⟨pa, pb, pr, w, -, -, hp, -, -, -, hb, hw, rfl⟩ := computeAddresses_ok hc
    exact ⟨_, h.trans hr, .stored pr w (by rw [hs, hp]; rfl) ht hb hw⟩
  · exact ⟨_, h.trans hr, by rw [← ho]; exact .faulted e hn.1 hn.2⟩

theorem ending_computeConstant {i : Instr} {o : Opcode} {f : Int → Int → Except Raised Int} {a b r : Int}
    (h : exec i s = settle o s (computeConstant f a b r s)) (ho : i.opcode = o)
    (hs : storeAddress i s = (effectiveAddress s r).toOption) (ht : transferTarget i = none)
    (hn : i ≠ .breakRun ∧ i ≠ .halt) : ∃ t, exec i s = .next t ∧ Ending i s t := by
  rcases settle_cases o s (computeConstant f a b r s) with ⟨t, hc, hr⟩ | ⟨e, -, hr⟩
  · obtain ⟨pa, pr, w, -, hp, -, -, hb, hw, rfl⟩ := computeConstant_ok hc
    exact ⟨_, h.trans hr, .stored pr w (by rw [hs, hp]; rfl) ht hb hw⟩
  · exact ⟨_, h.trans hr, by rw [← ho]; exact .faulted e hn.1 hn.2⟩

theorem ending_branch {i : Instr} {o : Opcode} {l : Int} {c : Except Raised State}
    (h : exec i s = settle o s c) (ho : i.opcode = o) (hc : ∀ t, c = .ok t → t = s.withPc l ∨ t = s)
    (hs : storeAddress i s = none) (ht : transferTarget i = some l) (hn : i ≠ .breakRun ∧ i ≠ .halt) :
    ∃ t, exec i s = .next t ∧ Ending i s t := by
  rcases settle_cases o s c with ⟨t, hok, hr⟩ | ⟨e, -, hr⟩
  · rcases hc t hok with rfl | rfl
    · exact ⟨_, h.trans hr, .transferred l ht hs⟩
    · exact ⟨_, h.trans hr, .unchanged hs hn.1 hn.2⟩
  · exact ⟨_, h.trans hr, by rw [← ho]; exact .faulted e hn.1 hn.2⟩

theorem ending_copy {i : Instr} {o : Opcode} {c : Except Raised State} (h : exec i s = settle o s c) (ho : i.opcode = o)
    (hc : ∀ t, c = .ok t → ∃ a v, storeAddress i s = some a ∧ InBounds a ∧ InDomain v ∧ t = s.store a v)
    (ht : transferTarget i = none) (hn : i ≠ .breakRun ∧ i ≠ .halt) : ∃ t, exec i s = .next t ∧ Ending i s t := by
  rcases settle_cases o s c with ⟨t, hok, hr⟩ | ⟨e, -, hr⟩
  · obtain ⟨a, v, hs, hb, hv, rfl⟩ := hc t hok
    exact ⟨_, h.trans hr, .stored a v hs ht hb hv⟩
  · exact ⟨_, h.trans hr, by rw [← ho]; exact .faulted e hn.1 hn.2⟩

theorem branchAddresses_target {test : Int → Int → Bool} {a b l : Int} :
    ∀ t, branchAddresses test a b l s = .ok t → t = s.withPc l ∨ t = s := by
  intro t h
  obtain ⟨pa, pb, -, -, -, -, rfl⟩ := branchAddresses_ok h
  split
  · exact .inl rfl
  · exact .inr rfl

theorem branchConstant_target {test : Int → Int → Bool} {a b l : Int} :
    ∀ t, branchConstant test a b l s = .ok t → t = s.withPc l ∨ t = s := by
  intro t h
  obtain ⟨pa, -, -, rfl⟩ := branchConstant_ok h
  split
  · exact .inl rfl
  · exact .inr rfl

/-- Every instruction answers a next state, and this is all it can be. -/
theorem exec_ending (i : Instr) (s : State) : ∃ t, exec i s = .next t ∧ Ending i s t := by
  cases i with
  | copyToFrom d p =>
    refine ending_copy rfl rfl (fun t h => ?_) rfl ⟨nofun, nofun⟩
    simp only [except_bind_eq_ok, memRead_eq_ok, memWrite_eq_ok] at h
    obtain ⟨a, ha, q, -, _, ⟨-, rfl⟩, hb, hv, rfl⟩ := h
    exact ⟨a, _, by simp only [storeAddress, ha]; rfl, hb, hv, rfl⟩
  | copyToFromConstant d v =>
    refine ending_copy rfl rfl (fun t h => ?_) rfl ⟨nofun, nofun⟩
    simp only [except_bind_eq_ok, memWrite_eq_ok] at h
    obtain ⟨a, ha, hb, hv, rfl⟩ := h
    exact ⟨a, _, by simp only [storeAddress, ha]; rfl, hb, hv, rfl⟩
  | copyToFromAddress d p =>
    refine ending_copy rfl rfl (fun t h => ?_) rfl ⟨nofun, nofun⟩
    simp only [except_bind_eq_ok, pointerTarget, memRead_eq_ok, memWrite_eq_ok] at h
    obtain ⟨a, ha, _, ⟨-, rfl⟩, _, ⟨-, rfl⟩, hb, hv, rfl⟩ := h
    exact ⟨a, _, by simp only [storeAddress, ha]; rfl, hb, hv, rfl⟩
  | copyIntoAddress p q =>
    refine ending_copy rfl rfl (fun t h => ?_) rfl ⟨nofun, nofun⟩
    simp only [except_bind_eq_ok, pointerTarget, memRead_eq_ok, memWrite_eq_ok] at h
    obtain ⟨a, -, _, ⟨hp, rfl⟩, _, ⟨-, rfl⟩, hb, hv, rfl⟩ := h
    exact ⟨_, _, by simp only [storeAddress, pointerTarget, memRead_ok hp]; rfl, hb, hv, rfl⟩
  | copyAddressOfLabel d l =>
    refine ending_copy rfl rfl (fun t h => ?_) rfl ⟨nofun, nofun⟩
    simp only [except_bind_eq_ok, memWrite_eq_ok] at h
    obtain ⟨a, ha, hb, hv, rfl⟩ := h
    exact ⟨a, _, by simp only [storeAddress, ha]; rfl, hb, hv, rfl⟩
  | add a b r => exact ending_computeAddresses rfl rfl rfl rfl ⟨nofun, nofun⟩
  | addConstant a b r => exact ending_computeConstant rfl rfl rfl rfl ⟨nofun, nofun⟩
  | subtract a b r => exact ending_computeAddresses rfl rfl rfl rfl ⟨nofun, nofun⟩
  | subtractConstant a b r => exact ending_computeConstant rfl rfl rfl rfl ⟨nofun, nofun⟩
  | multiply a b r => exact ending_computeAddresses rfl rfl rfl rfl ⟨nofun, nofun⟩
  | multiplyConstant a b r => exact ending_computeConstant rfl rfl rfl rfl ⟨nofun, nofun⟩
  | divide a b r => exact ending_computeAddresses rfl rfl rfl rfl ⟨nofun, nofun⟩
  | divideConstant a b r => exact ending_computeConstant rfl rfl rfl rfl ⟨nofun, nofun⟩
  | modulo a b r => exact ending_computeAddresses rfl rfl rfl rfl ⟨nofun, nofun⟩
  | moduloConstant a b r => exact ending_computeConstant rfl rfl rfl rfl ⟨nofun, nofun⟩
  | compare a b r => exact ending_computeAddresses rfl rfl rfl rfl ⟨nofun, nofun⟩
  | compareConstant a b r => exact ending_computeConstant rfl rfl rfl rfl ⟨nofun, nofun⟩
  | jumpTo l => exact ⟨_, rfl, .transferred l rfl rfl⟩
  | branchIfEqual a b l => exact ending_branch rfl rfl branchAddresses_target rfl rfl ⟨nofun, nofun⟩
  | branchIfEqualConstant a b l => exact ending_branch rfl rfl branchConstant_target rfl rfl ⟨nofun, nofun⟩
  | branchIfNotEqual a b l => exact ending_branch rfl rfl branchAddresses_target rfl rfl ⟨nofun, nofun⟩
  | branchIfNotEqualConstant a b l => exact ending_branch rfl rfl branchConstant_target rfl rfl ⟨nofun, nofun⟩
  | data => exact ⟨_, rfl, .unchanged rfl nofun nofun⟩
  | breakRun => exact ⟨_, rfl, .paused rfl⟩
  | halt => exact ⟨_, rfl, .stopped rfl⟩

/-- When an instruction answers `t`, this is what `t` can be. -/
theorem ending_of_exec {i : Instr} (h : exec i s = .next t) : Ending i s t := by
  obtain ⟨u, hu, he⟩ := exec_ending i s
  rw [hu] at h
  cases h
  exact he

/-! ### Fetch, cycle and step -/

/-- The opcode of a built instruction, and its operands. -/
theorem opcode_build (o : Opcode) (raws : List Int) : (o.build raws).opcode = o := by
  cases o <;> rfl

theorem operands_build {o : Opcode} {raws : List Int} (h : raws.length = o.arity) : (o.build raws).operands = raws := by
  match raws, h with
  | [], h => cases o <;> first | rfl | (simp [Opcode.arity, Opcode.kinds] at h)
  | [a], h => cases o <;> first | rfl | (simp [Opcode.arity, Opcode.kinds] at h)
  | [a, b], h => cases o <;> first | rfl | (simp [Opcode.arity, Opcode.kinds] at h)
  | [a, b, c], h => cases o <;> first | rfl | (simp [Opcode.arity, Opcode.kinds] at h)
  | a :: b :: c :: d :: l, h =>
    have : o.arity ≤ 3 := by cases o <;> decide
    simp only [List.length_cons] at h
    omega

/-- The inverse of the opcode map (rule R64). -/
theorem ofCode?_eq_some {op : Int} {o : Opcode} (h : Opcode.ofCode? op = some o) : o.code = op := by
  have := List.find?_some h
  simpa using this

theorem ofCode?_code (o : Opcode) : Opcode.ofCode? o.code = some o := by cases o <;> rfl

theorem arity_le (o : Opcode) : o.arity ≤ 3 := by cases o <;> decide

/-- What a fetch of an instruction can do: it changes `pc` only. -/
theorem fetchInstr_cases (s : State) :
    (∃ i, fetchInstr s = .ok (i, s.withPc (s.pc + i.length)) ∧ i.opcode.code = s.cell s.pc ∧ InProgram s.pc ∧
        s.pc + i.length ≤ Config.programEnd ∧ ∀ v ∈ i.operands, ∃ a : Nat, v = Memory.read s.mem a) ∨
      (∃ e p, fetchInstr s = .error (e, s.withPc p) ∧ s.pc ≤ p ∧ p ≤ s.pc + 4 ∧
        (p = s.pc ∨ p ≤ Config.programEnd)) := by
  by_cases h : InProgram s.pc
  · have hlt := h.2
    simp only [Config.programEnd] at hlt ⊢
    unfold fetchInstr
    rw [fetchCell_ok h]
    rcases ho : Opcode.ofCode? (s.cell s.pc) with - | o
    · exact .inr ⟨{ cause := .unknownOpcode, info := s.cell s.pc }, s.pc + 1, by simp only [ho], by omega, by omega, by omega⟩
    · simp only [ho]
      have ha := arity_le o
      by_cases hin : s.pc + 1 + o.arity ≤ 2000
      · have hk : ∀ k : Nat, k < o.arity → InProgram ((s.withPc (s.pc + 1)).pc + k) := fun k hk => by
          have := h.1
          simp only [InProgram, State.withPc_pc, Config.programStart, Config.programEnd] at this ⊢
          omega
        rw [fetchCells_ok _ hk]
        refine .inl ⟨o.build (Memory.readList s.mem (s.pc + 1).toNat o.arity), ?_, ?_, h, ?_, ?_⟩
        · simp only [Instr.length, opcode_build, Opcode.length, State.withPc_pc, State.withPc_withPc]
          rw [show s.pc + ((1 + o.arity : Nat) : Int) = s.pc + 1 + o.arity by push_cast; ring]
          rfl
        · rw [opcode_build, ofCode?_eq_some ho]
        · simp only [Instr.length, opcode_build, Opcode.length]
          push_cast
          omega
        · rw [operands_build (Memory.length_readList _ _ _)]
          intro v hv
          generalize o.arity = n at hv
          generalize (s.pc + 1).toNat = a at hv
          induction n generalizing a with
          | zero => simp [Memory.readList] at hv
          | succ n ih =>
            simp only [Memory.readList, List.mem_cons] at hv
            rcases hv with rfl | hv
            · exact ⟨_, rfl⟩
            · exact ih _ hv
      · obtain ⟨e, p, hf, hp, hq⟩ := fetchCells_error o.arity (s := s.withPc (s.pc + 1)) (by
          simp only [State.withPc_pc, Config.programStart]
          have := h.1
          simp only [Config.programStart] at this
          omega) (by simp only [State.withPc_pc, Config.programEnd]; omega)
          (by simp only [State.withPc_pc, Config.programEnd]; omega)
        refine .inr ⟨e, p, by simp only [hf, State.withPc_withPc], ?_, ?_, ?_⟩ <;>
          simp only [Config.programEnd] at hp <;> omega
  · exact .inr ⟨_, s.pc, by unfold fetchInstr; rw [fetchCell_error h]; rfl, le_refl _, by omega, .inl rfl⟩

/-- What a cycle can do: always a next state. -/
theorem cycle_cases (s : State) :
    (∃ i t, fetchInstr (refreshInput s) = .ok (i, (refreshInput s).withPc (s.pc + i.length)) ∧
        cycle s = .next t ∧ Ending i ((refreshInput s).withPc (s.pc + i.length)) t ∧ InProgram s.pc ∧
        s.pc + i.length ≤ Config.programEnd ∧
        ∀ v ∈ i.operands, ∃ a : Nat, v = Memory.read (refreshInput s).mem a) ∨
      (∃ e p, cycle s = .next (enterFault e s.pc ((refreshInput s).withPc p)) ∧ s.pc ≤ p ∧ p ≤ s.pc + 4 ∧
        (p = s.pc ∨ p ≤ Config.programEnd)) := by
  rcases fetchInstr_cases (refreshInput s) with ⟨i, hf, -, hp, hl, hv⟩ | ⟨e, p, hf, hp⟩
  · obtain ⟨t, ht, he⟩ := exec_ending i ((refreshInput s).withPc (s.pc + i.length))
    exact .inl ⟨i, t, hf, by unfold cycle; rw [hf]; exact ht, he, hp, hl, hv⟩
  · exact .inr ⟨e, p, by unfold cycle; rw [hf], hp⟩

/-- A step that is admitted is a cycle. -/
theorem step_of_admitted (h : StepAdmitted s) : step s = cycle s := by
  obtain ⟨h | h, hi⟩ := h <;> simp only [step, admitCycle, h, if_pos hi]

/-- A step that answers a next state was admitted. -/
theorem admitted_of_step (h : step s = .next t) : StepAdmitted s ∧ cycle s = .next t := by
  unfold step admitCycle at h
  split at h
  · cases h
  · cases h
  · cases h
  · rename_i hc
    split at h
    · rename_i hi
      exact ⟨⟨.inl hc, hi⟩, h⟩
    · cases h
  · rename_i hc
    split at h
    · rename_i hi
      exact ⟨⟨.inr hc, hi⟩, h⟩
    · cases h

/-- In a state that admits a step the block has neither halted nor faulted. -/
theorem flags_of_admitted (h : StepAdmitted s) : s.halted = false ∧ s.fault = none := by
  obtain ⟨h, -⟩ := h
  unfold controlState at h
  cases hr : s.running <;> cases hh : s.halted <;> cases hf : s.fault <;> simp [hr, hh, hf] at h ⊢

end Sys2Proof.Machine
end

