-- ==== Sys2Proof/Laws/PerInstr.lean ====
section
/-! SUPPORT. Statements made per instruction: facts about each instruction as syntax. -/

namespace Sys2Proof.Laws.EncodeShape

/-- The cells of an instruction are its opcode and then as many operands as its signature has (rules R61 and R66). -/
def Statement (i : Instr) : Prop :=
  (encode i).length = i.length ∧ (encode i).head? = some i.opcode.code ∧ i.operands.length = i.opcode.arity

theorem copyToFrom (d s : Int) : Statement (.copyToFrom d s) := ⟨rfl, rfl, rfl⟩
theorem copyToFromConstant (d v : Int) : Statement (.copyToFromConstant d v) := ⟨rfl, rfl, rfl⟩
theorem copyToFromAddress (d p : Int) : Statement (.copyToFromAddress d p) := ⟨rfl, rfl, rfl⟩
theorem copyIntoAddress (p s : Int) : Statement (.copyIntoAddress p s) := ⟨rfl, rfl, rfl⟩
theorem copyAddressOfLabel (d l : Int) : Statement (.copyAddressOfLabel d l) := ⟨rfl, rfl, rfl⟩
theorem add (a b r : Int) : Statement (.add a b r) := ⟨rfl, rfl, rfl⟩
theorem addConstant (a b r : Int) : Statement (.addConstant a b r) := ⟨rfl, rfl, rfl⟩
theorem subtract (a b r : Int) : Statement (.subtract a b r) := ⟨rfl, rfl, rfl⟩
theorem subtractConstant (a b r : Int) : Statement (.subtractConstant a b r) := ⟨rfl, rfl, rfl⟩
theorem multiply (a b r : Int) : Statement (.multiply a b r) := ⟨rfl, rfl, rfl⟩
theorem multiplyConstant (a b r : Int) : Statement (.multiplyConstant a b r) := ⟨rfl, rfl, rfl⟩
theorem divide (a b r : Int) : Statement (.divide a b r) := ⟨rfl, rfl, rfl⟩
theorem divideConstant (a b r : Int) : Statement (.divideConstant a b r) := ⟨rfl, rfl, rfl⟩
theorem modulo (a b r : Int) : Statement (.modulo a b r) := ⟨rfl, rfl, rfl⟩
theorem moduloConstant (a b r : Int) : Statement (.moduloConstant a b r) := ⟨rfl, rfl, rfl⟩
theorem compare (a b r : Int) : Statement (.compare a b r) := ⟨rfl, rfl, rfl⟩
theorem compareConstant (a b r : Int) : Statement (.compareConstant a b r) := ⟨rfl, rfl, rfl⟩
theorem jumpTo (l : Int) : Statement (.jumpTo l) := ⟨rfl, rfl, rfl⟩
theorem branchIfEqual (a b l : Int) : Statement (.branchIfEqual a b l) := ⟨rfl, rfl, rfl⟩
theorem branchIfEqualConstant (a b l : Int) : Statement (.branchIfEqualConstant a b l) := ⟨rfl, rfl, rfl⟩
theorem branchIfNotEqual (a b l : Int) : Statement (.branchIfNotEqual a b l) := ⟨rfl, rfl, rfl⟩
theorem branchIfNotEqualConstant (a b l : Int) : Statement (.branchIfNotEqualConstant a b l) := ⟨rfl, rfl, rfl⟩
theorem data : Statement .data := ⟨rfl, rfl, rfl⟩
theorem breakRun : Statement .breakRun := ⟨rfl, rfl, rfl⟩
theorem halt : Statement .halt := ⟨rfl, rfl, rfl⟩

end Sys2Proof.Laws.EncodeShape
end

