-- ==== Sys2Proof/Tests/Slice0.lean ====
section
/-! SUPPORT. Tests. Expected results are the worked examples W and the vectors V of 95_test_vectors.md, or read off the rule
named in the comment; the witnesses at the end show that the hypotheses of the statements can be met. -/

namespace Sys2Proof.Tests

open Sys2Proof.Machine

/-! ### Helpers -/

/-- The power-on state with a few cells set. -/
def start (cells : List (Nat × Int)) : State :=
  { State.reset with mem := cells.foldl (fun m c => Memory.write m c.1 c.2) [] }

/-- The state about to fetch the given cells at `a`. -/
def code (a : Nat) (cells : List Int) (rest : List (Nat × Int)) : State :=
  { start rest with mem := Memory.writeList (start rest).mem a cells, pc := a }

/-- The same with `INDIRECT_OPERANDS = true`. -/
def codeIndirect (a : Nat) (cells : List Int) (rest : List (Nat × Int)) : State :=
  { code a cells rest with indirectOperands := true }

/-- What `f` sees of the state after one step; `none` if the step gives no next state. -/
def reach {α : Type} (s : State) (f : State → α) : Option α :=
  match step s with
  | .next t => some (f t)
  | .fault _ => none
  | .refused _ => none

/-- What `f` sees of the state after one step with the given inputs. -/
def reachWith {α : Type} (i : InputVector) (s : State) (f : State → α) : Option α := reach { s with input := i } f

theorem reach_some {α : Type} {s : State} {f : State → α} {x : α} (h : reach s f = some x) :
    ∃ t, step s = .next t ∧ f t = x := by
  unfold reach at h
  split at h
  · exact ⟨_, by assumption, Option.some.inj h⟩
  · cases h
  · cases h

/-- A cell and `pc`. -/
def cellPc (a : Int) (t : State) : Int × Int := (t.cell a, t.pc)

/-- A cell, `pc` and the fault. -/
def cellPcFault (a : Int) (t : State) : Int × Int × Option FaultRecord := (t.cell a, t.pc, t.fault)

/-- A fault record. -/
def faultOf (cause : RuntimeError) (atPc info : Int) : Option FaultRecord :=
  some { cause := cause, atPc := atPc, info := info }

/-! ### Decode: one word per constructor, from the tables of rules R62 and R63 -/

theorem test_decode_copyToFrom : decode [9000, 5, 7] = .ok (.copyToFrom 5 7, []) := by decide
theorem test_decode_copyToFromConstant : decode [9001, 0, 42] = .ok (.copyToFromConstant 0 42, []) := by decide
theorem test_decode_copyToFromAddress : decode [9002, 2, 3] = .ok (.copyToFromAddress 2 3, []) := by decide
theorem test_decode_copyIntoAddress : decode [9003, 4, 1] = .ok (.copyIntoAddress 4 1, []) := by decide
theorem test_decode_copyAddressOfLabel : decode [9004, 0, 1035] = .ok (.copyAddressOfLabel 0 1035, []) := by decide
theorem test_decode_add : decode [9010, 0, 1, 2] = .ok (.add 0 1 2, []) := by decide
theorem test_decode_addConstant : decode [9011, 0, -7, 2] = .ok (.addConstant 0 (-7) 2, []) := by decide
theorem test_decode_subtract : decode [9020, 0, 1, 2] = .ok (.subtract 0 1 2, []) := by decide
theorem test_decode_subtractConstant : decode [9021, 0, -7, 2] = .ok (.subtractConstant 0 (-7) 2, []) := by decide
theorem test_decode_multiply : decode [9030, 0, 1, 2] = .ok (.multiply 0 1 2, []) := by decide
theorem test_decode_multiplyConstant : decode [9031, 0, -7, 2] = .ok (.multiplyConstant 0 (-7) 2, []) := by decide
theorem test_decode_divide : decode [9040, 0, 1, 2] = .ok (.divide 0 1 2, []) := by decide
theorem test_decode_divideConstant : decode [9041, 0, -7, 2] = .ok (.divideConstant 0 (-7) 2, []) := by decide
theorem test_decode_modulo : decode [9050, 0, 1, 2] = .ok (.modulo 0 1 2, []) := by decide
theorem test_decode_moduloConstant : decode [9051, 0, -7, 2] = .ok (.moduloConstant 0 (-7) 2, []) := by decide
theorem test_decode_compare : decode [9090, 0, 1, 2] = .ok (.compare 0 1 2, []) := by decide
theorem test_decode_compareConstant : decode [9091, 0, -7, 2] = .ok (.compareConstant 0 (-7) 2, []) := by decide
theorem test_decode_jumpTo : decode [9100, 1003] = .ok (.jumpTo 1003, []) := by decide
theorem test_decode_branchIfEqual : decode [9101, 0, 1, 1020] = .ok (.branchIfEqual 0 1 1020, []) := by decide
theorem test_decode_branchIfEqualConstant :
    decode [9102, 0, -1, 1006] = .ok (.branchIfEqualConstant 0 (-1) 1006, []) := by decide
theorem test_decode_branchIfNotEqual :
    decode [9103, 0, 1, 1000] = .ok (.branchIfNotEqual 0 1 1000, []) := by decide
theorem test_decode_branchIfNotEqualConstant :
    decode [9104, 0, -1, 1020] = .ok (.branchIfNotEqualConstant 0 (-1) 1020, []) := by decide
theorem test_decode_data : decode [9200] = .ok (.data, []) := by decide
theorem test_decode_breakRun : decode [9998] = .ok (.breakRun, []) := by decide
theorem test_decode_halt : decode [9999] = .ok (.halt, []) := by decide

/-- Rule R65: neither 0, nor a neighbour of an opcode, nor a negative value is an opcode. -/
theorem test_decode_unknown : decode [0] = .error (.unknownOpcode 0) ∧
    decode [9005, 1, 2] = .error (.unknownOpcode 9005) ∧
    decode [-9000, 1, 2] = .error (.unknownOpcode (-9000)) := by decide

/-- Rule R61: an instruction has all its cells. -/
theorem test_decode_short : decode [9010, 0, 1] = .error (.missingOperands .add) ∧
    decode [] = .error .noCell := by decide

/-- Rule R98 on the image of W8. -/
theorem test_disassemble : disassemble (code 1000 [9001, 0, 42, 9999] []).mem 1000 =
    some ("copy_to_from_constant", [0, 42]) := by decide

/-- Log entry 7: three cells of 64 bits, the second `-1`, the third 5. -/
theorem test_table_word : decodeTableWord 192 (9001 + 2 ^ 64 * (2 ^ 64 - 1) + 2 ^ 128 * 5) =
    some (.copyToFromConstant (-1) 5) := by decide

theorem test_table_word_short : decodeTableWord 16 9104 = some (.branchIfNotEqualConstant 0 0 0) ∧
    decodeTableWord 16 9105 = none := by decide

/-- The word placed by `withFetchWord` is what the step runs: `copy_to_from_constant 7 -2`. -/
theorem test_fetch_word : reach (State.reset.withFetchWord 192 (9001 + 2 ^ 64 * 7 + 2 ^ 128 * (2 ^ 64 - 2))) (cellPc 7) =
    some (-2, 1003) := by decide

/-! ### Well-formedness -/

/-- Rule R69: the ends of the domain are operands. -/
theorem test_wellformed_ends : (Instr.addConstant valueMin valueMax 0).WellFormed := by decide

/-- Rule R39: one past either end is not. -/
theorem test_wellformed_refuses_above : ¬(Instr.copyToFromConstant 0 (valueMax + 1)).WellFormed := by decide

theorem test_wellformed_refuses_below : ¬(Instr.jumpTo (valueMin - 1)).WellFormed := by decide

theorem test_wellformed_refuses_third : ¬(Instr.compare 0 0 (valueMax + 1)).WellFormed := by decide

/-! ### The instructions -/

/-- V1. -/
theorem test_copyToFrom : reach (code 1000 [9000, 5, 7] [(7, -3)]) (cellPc 5) =
    some (-3, 1003) := by decide

/-- V5. -/
theorem test_copyToFrom_readsFirst : reach (code 1000 [9000, -5, 3100] []) (cellPcFault 5) =
    some (0, 1003, faultOf .outOfBounds 1000 3100) := by decide

/-- V6. -/
theorem test_copyToFromConstant : reach (code 1000 [9001, 0, -9007199254740991] []) (cellPc 0) =
    some (-9007199254740991, 1003) := by decide

/-- V7. -/
theorem test_copyToFromConstant_ownOpcode : reach (code 1000 [9001, 1000, 9999] []) (cellPc 1000) =
    some (9999, 1003) := by decide

/-- V10. -/
theorem test_copyToFromAddress : reach (code 1000 [9002, 0, 0] [(0, 1), (1, 9)]) (cellPc 0) =
    some (9, 1003) := by decide

/-- V11. -/
theorem test_copyToFromAddress_pointerCell : reach (code 1000 [9002, 2, 3100] []) (cellPcFault 2) =
    some (0, 1003, faultOf .outOfBounds 1000 3100) := by decide

/-- V12. -/
theorem test_copyIntoAddress : reach (code 1000 [9003, 4, 1] [(4, 20), (1, 35)]) (cellPc 20) =
    some (35, 1003) := by decide

/-- V13. -/
theorem test_copyIntoAddress_target : reach (code 1000 [9003, 4, 1] [(4, -1), (1, 35)]) (cellPcFault 1) =
    some (35, 1003, faultOf .outOfBounds 1000 (-1)) := by decide

/-- V16. -/
theorem test_copyAddressOfLabel : reach (code 1000 [9004, 0, 1035] []) (cellPc 0) =
    some (1035, 1003) := by decide

/-- V17. -/
theorem test_copyAddressOfLabel_bounds : reach (code 1000 [9004, 3100, 1035] []) (cellPcFault 0) =
    some (0, 1003, faultOf .outOfBounds 1000 3100) := by decide

/-- V22. -/
theorem test_add : reach (code 1000 [9010, 0, 0, 0] [(0, -6)]) (cellPc 0) =
    some (-12, 1004) := by decide

/-- V23. -/
theorem test_add_overflow : reach (code 1000 [9010, 0, 1, 2] [(0, 9007199254740991), (1, 1)]) (cellPcFault 2) =
    some (0, 1004, faultOf .invalidValue 1000 9007199254740992) := by decide

/-- V27. -/
theorem test_addConstant : reach (code 1000 [9011, 0, -5, 1] [(0, 3)]) (cellPc 1) =
    some (-2, 1004) := by decide

/-- V28. -/
theorem test_subtract : reach (code 1000 [9020, 0, 1, 2] [(0, 3), (1, 5)]) (cellPc 2) =
    some (-2, 1004) := by decide

/-- V30. -/
theorem test_subtractConstant : reach (code 1000 [9021, 0, 1, 0] [(0, 5)]) (cellPc 0) =
    some (4, 1004) := by decide

/-- V31. -/
theorem test_subtractConstant_underflow : reach (code 1000 [9021, 0, 1, 0] [(0, -9007199254740991)]) (cellPcFault 0) =
    some (-9007199254740991, 1004, faultOf .invalidValue 1000 (-9007199254740992)) := by decide

/-- V32. -/
theorem test_multiply : reach (code 1000 [9030, 0, 1, 2] [(0, -3), (1, 4)]) (cellPc 2) =
    some (-12, 1004) := by decide

/-- V33. -/
theorem test_multiply_overflow : reach (code 1000 [9030, 0, 1, 2] [(0, 4503599627370496), (1, 2)]) (cellPcFault 2) =
    some (0, 1004, faultOf .invalidValue 1000 9007199254740992) := by decide

/-- V36. -/
theorem test_multiplyConstant : reach (code 1000 [9031, 0, -1, 0] [(0, -9007199254740991)]) (cellPc 0) =
    some (9007199254740991, 1004) := by decide

/-- V38. -/
theorem test_divide : reach (code 1000 [9040, 0, 1, 2] [(0, -7), (1, 2)]) (cellPc 2) =
    some (-3, 1004) := by decide

/-- V43. -/
theorem test_divide_zeroFirst : reach (code 1000 [9040, 0, 1, 3100] [(0, 7)]) (cellPcFault 2) =
    some (0, 1004, faultOf .divisionByZero 1000 7) := by decide

/-- V44. -/
theorem test_divideConstant : reach (code 1000 [9041, 0, 2, 1] [(0, -7)]) (cellPc 1) =
    some (-3, 1004) := by decide

/-- V45. -/
theorem test_divideConstant_zero : reach (code 1000 [9041, 0, 0, 1] [(0, -7)]) (cellPcFault 1) =
    some (0, 1004, faultOf .divisionByZero 1000 (-7)) := by decide

/-- V48. -/
theorem test_modulo : reach (code 1000 [9050, 0, 1, 2] [(0, 7), (1, -2)]) (cellPc 2) =
    some (1, 1004) := by decide

/-- V51. -/
theorem test_modulo_zero : reach (code 1000 [9050, 0, 1, 2] [(0, 7)]) (cellPcFault 2) =
    some (0, 1004, faultOf .moduloByZero 1000 7) := by decide

/-- V52. -/
theorem test_moduloConstant : reach (code 1000 [9051, 0, 32, 1] [(0, 100)]) (cellPc 1) =
    some (4, 1004) := by decide

/-- V53. -/
theorem test_moduloConstant_zero : reach (code 1000 [9051, 0, 0, 1] [(0, 100)]) (cellPcFault 1) =
    some (0, 1004, faultOf .moduloByZero 1000 100) := by decide

/-- V60. -/
theorem test_compare : reach (code 1000 [9090, 0, 1, 0] [(0, -9007199254740991), (1, 9007199254740991)]) (cellPc 0) =
    some (-1, 1004) := by decide

/-- V58, W6. -/
theorem test_compare_greater : reach (code 1000 [9090, 0, 1, 2] [(0, 5), (1, 3)]) (cellPc 2) =
    some (1, 1004) := by decide

/-- V64. -/
theorem test_compareConstant : reach (code 1000 [9091, 0, -8, 1] [(0, -7)]) (cellPc 1) =
    some (1, 1004) := by decide

/-- V62, with a result cell that did not hold 0. -/
theorem test_compareConstant_equal : reach (code 1000 [9091, 0, -7, 2] [(0, -7), (2, 4)]) (cellPc 2) =
    some (0, 1004) := by decide

/-- V67, step 1. -/
theorem test_jumpTo_unchecked : reach (code 1000 [9100, 2000] []) (cellPcFault 0) =
    some (0, 2000, none) := by decide

/-- V69. -/
theorem test_branchIfEqual_taken : reach (code 1000 [9101, 0, 1, 1020] [(0, 5), (1, 5)]) (cellPc 0) =
    some (5, 1020) := by decide

/-- V72. -/
theorem test_branchIfEqual_bounds : reach (code 1000 [9101, 3100, 0, 1020] []) (cellPcFault 0) =
    some (0, 1004, faultOf .outOfBounds 1000 3100) := by decide

/-- V73. -/
theorem test_branchIfEqualConstant_taken : reach (code 1014 [9102, 0, 0, 1006] []) (cellPc 0) =
    some (0, 1006) := by decide

/-- V74. -/
theorem test_branchIfEqualConstant_not : reach (code 1014 [9102, 0, 0, 1006] [(0, 1)]) (cellPc 0) =
    some (1, 1018) := by decide

/-- V75. -/
theorem test_branchIfNotEqual_taken : reach (code 1000 [9103, 0, 1, 1000] [(0, 3), (1, 4)]) (cellPc 0) =
    some (3, 1000) := by decide

/-- V76. -/
theorem test_branchIfNotEqual_not : reach (code 1000 [9103, 0, 0, 1000] [(0, 3)]) (cellPc 0) =
    some (3, 1004) := by decide

/-- V77. -/
theorem test_branchIfNotEqualConstant_taken : reach (code 1014 [9104, 0, 0, 1006] [(0, 4)]) (cellPc 0) =
    some (4, 1006) := by decide

/-- V79. -/
theorem test_branchIfNotEqualConstant_not : reach (code 1000 [9104, 0, -1, 1020] [(0, -1)]) (cellPc 0) =
    some (-1, 1004) := by decide

/-- V80. -/
theorem test_data : reach (code 1000 [9200] []) (fun t => (t.pc, controlState t)) =
    some (1001, some .paused) := by decide

/-- V81: `break` from `running`. -/
theorem test_break_running : reach { code 1003 [9998] [] with running := true } (fun t => (t.pc, controlState t)) =
    some (1004, some .paused) := by decide

/-- V83: `halt` from `running`. -/
theorem test_halt_running : reach { code 1010 [9999] [] with running := true } (fun t => (t.pc, controlState t)) =
    some (1011, some .halted) := by decide

/-! ### Indirect operands -/

/-- V18. -/
theorem test_indirect_source : reach (codeIndirect 1000 [9000, 5, -4] [(3, 10), (10, 42)]) (cellPc 5) =
    some (42, 1003) := by decide

/-- V19. -/
theorem test_indirect_destination : reach (codeIndirect 1000 [9000, -4, 7] [(3, 3100), (7, 1)]) (cellPcFault 3) =
    some (3100, 1003, faultOf .outOfBounds 1000 3100) := by decide

/-- V20. -/
theorem test_indirect_notPointer : reach (codeIndirect 1000 [9002, 2, 3] [(3, 10), (10, 42)]) (cellPc 2) =
    some (42, 1003) := by decide

/-- V54. -/
theorem test_indirect_add : reach (codeIndirect 1000 [9010, -11, 1, 2] [(10, 20), (20, 5), (1, 6)]) (cellPc 2) =
    some (11, 1004) := by decide

/-- V55. -/
theorem test_indirect_belowRange : reach (codeIndirect 1000 [9010, -3101, 1, 2] []) (cellPcFault 2) =
    some (0, 1004, faultOf .outOfBounds 1000 (-3101)) := by decide

/-! ### Fetch, input refresh and control state -/

/-- V86: a step at power-on. -/
theorem test_powerOn : reach State.reset (cellPcFault 0) = some (0, 1001, faultOf .unknownOpcode 1000 0) := by decide

/-- V87. -/
theorem test_fetch_pastEnd : reach (code 1999 [9100] []) (cellPcFault 0) =
    some (0, 2000, faultOf .programCounterOutOfRange 1999 2000) := by decide

/-- V88. -/
theorem test_fetch_haltAtEnd : reach (code 1999 [9999] []) (fun t => (t.pc, controlState t)) =
    some (2000, some .halted) := by decide

/-- V89. -/
theorem test_fetch_belowProgram : reach (code 999 [9999] []) (cellPcFault 0) =
    some (0, 999, faultOf .programCounterOutOfRange 999 999) := by decide

/-- V90: the refresh precedes the instruction's reads. -/
theorem test_refresh_random : reachWith { InputVector.zero with random := 77 } (code 1000 [9000, 0, 2007] []) (fun t =>
    (t.cell 0, t.cell 2007)) = some (77, 77) := by decide

/-- V92, step 1: an instruction may write an input cell. -/
theorem test_refresh_overwritten : reachWith { InputVector.zero with random := 11 } (code 1000 [9001, 2007, 5] [])
    (cellPc 2007) = some (5, 1003) := by decide

/-- V95, and rule R48 for the other cells: each input has its own cell. -/
theorem test_refresh_cells : reachWith ⟨65, 66, 67, 3, 4, 5, 6, 7, 8⟩
    (code 1000 [9200] []) (fun t => Memory.readList t.mem 2000 10) =
    some [65, 66, 67, 3, 4, 5, 6, 7, 8, 0] := by decide

/-- V96: a fault keeps the refresh. -/
theorem test_refresh_kept : reachWith { InputVector.zero with time := 500 } (code 1000 [9040, 0, 1, 2] [])
    (cellPcFault 2008) = some (500, 1004, faultOf .divisionByZero 1000 0) := by decide

/-- Log entry 6: an input value outside the domain is refused. -/
theorem test_input_refused : reachWith { InputVector.zero with time := valueMax + 1 } (code 1000 [9200] []) State.pc =
    none := by decide

/-- V84, V85: `halted` rejects a step, and `run` does nothing. -/
theorem test_halted : let s := { code 1000 [9200] [] with halted := true }
    stepOnce InputVector.zero s = (s, .rejected) ∧ runCommand s = s := by decide

/-- V97: `faulted` likewise, and `stop` does nothing. -/
theorem test_faulted : let s := { code 1000 [9200] [] with fault := faultOf .outOfBounds 1000 3100 }
    stepOnce InputVector.zero s = (s, .rejected) ∧ runCommand s = s ∧ stopCommand s = s := by decide

/-- V98 to V100. -/
theorem test_commands : stopCommand State.reset = State.reset ∧
    runCommand { State.reset with running := true } = { State.reset with running := true } ∧
    readMemory 3100 State.reset = .readOutOfBounds 3100 := by decide

/-- V101: a `stepOnce` while running leaves the block running, and does not stop it. -/
theorem test_step_while_running :
    controlState (stepOnce InputVector.zero { code 1000 [9001, 0, 1] [] with running := true }).1 = some .running := by
  decide

/-- Rule R132 on P4, step 3: a turn of the run loop reports the error and its information to the host. -/
theorem test_loop_reports : (loopStep { code 1004 [9041, 0, 0, 0] [(0, 7)] with running := true }).2 =
    .runtimeError .divisionByZero 7 := by decide

/-- V81, the run loop's part: no turn after a `break`, and no error to report. -/
theorem test_loop_ends : (runLoop 5 { code 1003 [9998] [] with running := true }).2 = [.done] := by decide

/-- V102: a failed load leaves a halted block as it was. -/
theorem test_failed_load : let s := { code 1000 [9200] [] with halted := true }
    loadAndReset "Halt" s = (s, .assemblyError (.syntaxError "Halt".toList none 1)) := by decide

/-- W2 on a small image: a load clears every other cell. -/
theorem test_load : let s := (loadAndReset "halt" (start [(0, 5), (1001, 7), (3099, 9)])).1
    s.mem = [(1000, 9999), (1001, 9999)] ∧ s.pc = 1000 := by decide

/-! ### The assembler -/

/-- V103 to V105. -/
theorem test_asm_halt :
    assemble false "halt" = .ok [9999, 9999] ∧
    assemble false "" = .ok [9999] ∧
    assemble false "  ; comment\n\nhalt ; stop" = .ok [9999, 9999] := by decide

/-- V106, V107, W8. -/
theorem test_asm_define :
    assemble false "define x 42\ncopy_to_from_constant 0 x" = .ok [9001, 0, 42, 9999] ∧
    assemble false "define k 5\ndefine j k\ndata j -1" = .ok [5, -1, 9999] := by decide

/-- V108, V120. -/
theorem test_asm_undefined :
    assemble false "copy_to_from_constant 0 k\ndefine k 1" = .error (.undefinedConstant "k".toList 1) ∧
    assemble false "copy_to_from_constant 0 12abc" = .error (.undefinedConstant "12abc".toList 1) := by decide

/-- V109 to V111. -/
theorem test_asm_defineErrors :
    assemble false "define k 1\ndefine k 2" = .error (.duplicateDefine "k".toList 2) ∧
    assemble false "define x" = .error (.syntaxError "define".toList (some (2, 1)) 1) ∧
    assemble false "define 5 6" = .error (.syntaxError "define".toList none 1) := by decide

/-- V112, V113. -/
theorem test_asm_unknownLabel :
    assemble false "jump_to nowhere" = .error (.unknownLabel "nowhere".toList 1) ∧
    assemble false "jump_to 1005" = .error (.unknownLabel "1005".toList 1) := by decide

/-- V114, V115. -/
theorem test_asm_forwardLabel :
    assemble false "jump_to end\ndata 1 2 3\nend:\nhalt" = .ok [9100, 1005, 1, 2, 3, 9999, 9999] ∧
    assemble false "top:\njump_to top" = .ok [9100, 1000, 9999] := by decide

/-- V116, V117, V130, W14. -/
theorem test_asm_labelForms :
    assemble false "halt\nlast:" = .ok [9999, 9999] ∧
    assemble false "loop: halt" = .error (.syntaxError "loop:".toList none 1) ∧
    assemble false "a:\na:\nhalt" = .error (.duplicateLabel "a".toList 2) := by decide

/-- V118, V119. -/
theorem test_asm_mnemonics :
    assemble false "Halt" = .error (.syntaxError "Halt".toList none 1) ∧
    assemble false "label x" = .error (.syntaxError "label".toList none 1) := by decide

/-- V121, V122. -/
theorem test_asm_literals :
    assemble false "copy_to_from_constant 0 +7\ncopy_to_from_constant 1 -007" = .ok [9001, 0, 7, 9001, 1, -7, 9999] ∧
    assemble false "copy_to_from_constant 0 9007199254740992" = .error (.syntaxError "copy_to_from_constant".toList none 1) := by decide

/-- V123 to V125, V127. -/
theorem test_asm_indirect :
    assemble false "copy_to_from 5 *3" = .error (.syntaxError "copy_to_from".toList none 1) ∧
    assemble true "copy_to_from 5 *3" = .ok [9000, 5, -4, 9999] ∧
    assemble true "copy_to_from 5 -4" = .error (.syntaxError "copy_to_from".toList none 1) ∧
    assemble true "copy_to_from *3100 0" = .error (.syntaxError "copy_to_from".toList none 1) := by decide

/-- V126, V131. -/
theorem test_asm_indirectPointer :
    assemble true "copy_to_from_address 2 *3" = .error (.syntaxError "copy_to_from_address".toList none 1) ∧
    assemble true "data 1 *2" = .error (.syntaxError "data".toList none 1) := by decide

/-- V128, V129, V137, W10. -/
theorem test_asm_arity :
    assemble false "add 1 2\njump_to nowhere" = .error (.syntaxError "add".toList (some (3, 2)) 1) ∧
    assemble false "halt 1" = .error (.syntaxError "halt".toList (some (0, 1)) 1) := by decide

/-- V132, V135. -/
theorem test_asm_dataEmpty :
    assemble false "data" = .ok [9999] ∧
    assemble false "add 0 1 5000" = .ok [9010, 0, 1, 5000, 9999] := by decide

/-- V136. -/
theorem test_asm_namespaces :
    assemble false "x:\ndefine x 3\ncopy_to_from_constant 0 x\njump_to x" = .ok [9001, 0, 3, 9100, 1000, 9999] := by decide
/-! ### Witnesses: the hypotheses of the statements can be met, each clause at a boundary of its range -/

/-- A state whose cells hold boundary values: addresses just inside and just outside memory, the ends of the domain. -/
def w : State :=
  start [(0, 7), (2, 5), (3, valueMax), (4, valueMin), (5, 3100), (6, -1), (7, 3099)]

/-- The same with the indirect option. -/
def wIndirect : State := { w with indirectOperands := true }

/-- The operands `a` and `b` name the cells `a` and `b` directly. -/
abbrev Direct2 (a b : Int) : Prop :=
  Memory.wf w.mem ∧ effectiveAddress w a = .ok a ∧ effectiveAddress w b = .ok b

/-- The operands `a`, `b` and `r` name the cells `a`, `b` and `r` directly. -/
abbrev Direct3 (a b r : Int) : Prop := Direct2 a b ∧ effectiveAddress w r = .ok r

theorem witness_DecodeFollowsOpcodeMap : [5, -7].length = Opcode.copyToFrom.arity ∧
    ([] : List Int).length = Opcode.halt.arity ∧ (∀ o : Opcode, o.code ≠ 0) ∧ (∀ o : Opcode, o.code ≠ 9005) ∧
    Opcode.halt.code = Opcode.halt.code :=
  ⟨rfl, rfl, by intro o; cases o <;> decide, by intro o; cases o <;> decide, rfl⟩

theorem witness_DecodeOfEncodeIsIdentity : (Instr.add valueMin valueMax (-1)).WellFormed := by decide

theorem witness_DecodeReadsOnlyEncodings : decode [9100, 1003, 7] = .ok (.jumpTo 1003, [7]) := by decide

theorem witness_DisassemblyInvertsEncoding :
    Memory.readList (code 1000 [9100, 1003] []).mem 1000 (Instr.jumpTo 1003).length = encode (.jumpTo 1003) := by decide

theorem witness_MemoryAccessPrimitives : Memory.wf w.mem ∧ ¬InBounds (-1) ∧ ¬InBounds 3100 ∧ InBounds 0 ∧
    InBounds 3099 ∧ InDomain valueMin ∧ InDomain valueMax ∧ ¬InDomain (valueMin - 1) ∧ ¬InDomain (valueMax + 1) := by decide

theorem witness_EffectiveAddressOfOperand : w.indirectOperands = false ∧ wIndirect.indirectOperands = true := by decide

theorem witness_IndirectEncodingNamesEveryCell : InIndirectRange (-1) ∧ InIndirectRange (-3100) ∧
    indirectRaw 0 = -1 ∧ indirectRaw 3099 = -3100 := by decide

theorem witness_DeviceCellsAreDistinct : videoCell 0 0 = 2050 ∧ videoCell 31 31 = 3073 ∧
    audioCell 0 .waveType = 3074 ∧ audioCell 2 .volume = 3082 := by decide

theorem witness_StoreIntoCodeIsFetched : Memory.wf w.mem ∧ InProgram 1000 ∧ InProgram 1999 := by decide

/-- An instruction that ends with the last program cell. -/
def wLast : State := code 1996 [9010, 0, 1, 2] [(0, 4), (1, 4)]

theorem witness_StepRunsDecodedInstruction : StepAdmitted wLast ∧
    (∀ k : Nat, k < (Instr.add 0 1 2).length → InProgram (wLast.pc + k)) ∧
    decode (Memory.readList wLast.mem wLast.pc.toNat (Instr.add 0 1 2).length) = .ok (.add 0 1 2, []) :=
  ⟨⟨by decide, by decide⟩, by decide, by decide⟩

theorem witness_RefreshWritesInputCells : Memory.wf w.mem := by decide

theorem witness_FetchAndDecodeFaults_range :
    StepAdmitted (code 999 [] []) ∧ ¬InProgram (code 999 [] []).pc ∧
    StepAdmitted (code 2000 [9999] []) ∧ ¬InProgram (code 2000 [9999] []).pc :=
  ⟨⟨by decide, by decide⟩, by decide, ⟨by decide, by decide⟩, by decide⟩

theorem witness_FetchAndDecodeFaults_unknown :
    StepAdmitted (code 1000 [9005] []) ∧ InProgram (code 1000 [9005] []).pc ∧
    ∀ o : Opcode, o.code ≠ (code 1000 [9005] []).cell (code 1000 [9005] []).pc :=
  ⟨⟨by decide, by decide⟩, by decide, by intro o; cases o <;> decide⟩

theorem witness_FetchAndDecodeFaults_operands :
    StepAdmitted (code 1997 [9010, 0, 1] []) ∧ InProgram (code 1997 [9010, 0, 1] []).pc ∧
    Opcode.add.code = (code 1997 [9010, 0, 1] []).cell (code 1997 [9010, 0, 1] []).pc ∧
    2000 < (code 1997 [9010, 0, 1] []).pc + Opcode.add.length :=
  ⟨⟨by decide, by decide⟩, by decide, by decide, by decide⟩

/-- A halted state. -/
def wHalted : State := { w with halted := true }

/-- A faulted state. -/
def wFaulted : State := { w with fault := faultOf .outOfBounds 1000 3100 }

theorem witness_StepRejectedWhenStopped : controlState wHalted = some .halted ∧ controlState wFaulted = some .faulted := by
  decide

theorem witness_PowerOnState : InputVector.zero.InDomain := by decide

/-- A running state that meets the invariant, about to run an instruction. -/
def wRunning : State := { code 1000 [9010, 0, 1, 2] [(0, valueMax), (1, -1)] with running := true }

/-- The state of P4 of 95_test_vectors.md after its second `run`: the next step divides 7 by the constant 0. -/
def wFaults : State := { code 1004 [9041, 0, 0, 0] [(0, 7)] with running := true }

theorem wRunning_invariant : MachineInv wRunning := by
  refine ⟨by decide, by decide, ⟨by decide, by decide⟩, by decide⟩

theorem witness_StepKeepsInvariant : MachineInv wRunning ∧ ∃ t, step wRunning = .next t :=
  ⟨wRunning_invariant, (reach_some (x := (9007199254740990 : Int)) (f := fun t => t.cell 2) (by decide)).imp fun _ h => h.1⟩

theorem witness_EventsKeepInvariant : MachineInv wRunning ∧
    ∀ e ∈ [Event.loopTurn, .present InputVector.zero, .command .stop, .command (.stepOnce InputVector.zero),
      .command (.loadAndReset "halt"), .command .run], e.Conforms :=
  ⟨wRunning_invariant, by
    have hz : InputVector.zero.InDomain := by decide
    intro e he
    simp only [List.mem_cons, List.not_mem_nil, or_false] at he
    rcases he with rfl | rfl | rfl | rfl | rfl | rfl <;> first | exact hz | trivial⟩

/-- Every event that is no load, and a load that fails. -/
def wEvents : List Event :=
  [.loopTurn, .command .run, .command (.stepOnce InputVector.zero), .command .stop, .command (.setCycleDelay 5),
    .command (.readMemory 3100), .present InputVector.zero, .command (.loadAndReset "Halt")]

theorem witness_StoppedStatesAreLeftOnlyByLoad : controlState wHalted = some .halted ∧
    controlState wFaulted = some .faulted ∧ wHalted.indirectOperands = wFaulted.indirectOperands ∧
    ∀ text, Event.command (.loadAndReset text) ∈ wEvents →
      ∃ e, assemble wHalted.indirectOperands text = .error e := by
  refine ⟨by decide, by decide, rfl, fun text h => ⟨.syntaxError "Halt".toList none 1, ?_⟩⟩
  have h : text = "Halt" := by simpa [wEvents] using h
  subst h
  decide

theorem witness_FaultingStepIsPrecise : ∃ t, step (code 1000 [9040, 0, 1, 2] [(0, 7)]) = .next t ∧ t.fault ≠ none :=
  (reach_some (x := faultOf .divisionByZero 1000 7) (f := State.fault) (by decide)).imp fun _ h =>
    ⟨h.1, by rw [h.2]; decide⟩

theorem witness_ExecWritesOnlyItsStoreAddress : (∃ t, exec (.add 0 2 1) w = .next t) ∧
    storeAddress (.add 0 2 1) w = some 1 ∧ (∃ t, exec .halt w = .next t) ∧ storeAddress .halt w = none :=
  ⟨⟨_, rfl⟩, by decide, ⟨_, rfl⟩, rfl⟩

theorem witness_ExecWritesControlOnlyAsNamed : (∃ t, exec (.jumpTo 1003) wRunning = .next t ∧ t.pc ≠ wRunning.pc ∧
    t.running = true ∧ t.fault = none) ∧ (∃ t, exec .halt wRunning = .next t ∧ t.halted = true) :=
  ⟨⟨_, rfl, by decide, by decide, by decide⟩, ⟨_, rfl, by decide⟩⟩

theorem witness_CopyToFromRule : Direct2 0 3100 ∧ ¬InBounds 3100 ∧ Direct2 (-1) 3099 ∧ InBounds 3099 ∧ ¬InBounds (-1) ∧
    Direct2 3099 0 ∧ InBounds 0 := by decide

theorem witness_CopyToFromConstantRule : Direct2 3100 3099 ∧ InDomain valueMin ∧ InDomain valueMax ∧ ¬InBounds 3100 ∧
    InBounds 3099 := by decide

theorem witness_CopyThroughPointerSourceRule : Direct2 0 3100 ∧ ¬InBounds 3100 ∧ InBounds 5 ∧ ¬InBounds (w.cell 5) ∧
    InBounds 6 ∧ ¬InBounds (w.cell 6) ∧ InBounds 7 ∧ InBounds (w.cell 7) ∧ InBounds 0 := by decide

theorem witness_CopyThroughPointerDestinationRule : Direct2 0 3100 ∧ ¬InBounds (-1) ∧ ¬InBounds 3100 ∧ InBounds 5 ∧
    ¬InBounds (w.cell 5) ∧ InBounds 7 ∧ InBounds (w.cell 7) ∧ InBounds 0 := by decide

theorem witness_CopyAddressOfLabelRule : Direct2 3100 3099 ∧ InDomain 1000 ∧ ¬InBounds 3100 ∧ InBounds 3099 := by decide

/-- The error clauses that the arithmetic and compare rules share. -/
theorem witness_bounds_of_three : Direct3 3100 0 0 ∧ ¬InBounds 3100 ∧ Direct3 3099 (-1) 0 ∧ InBounds 3099 ∧
    ¬InBounds (-1) ∧ Direct3 0 3099 3100 ∧ InBounds 0 := by decide

/-- Sums at the ends of the domain and one past them: cells 3 and 4 hold the ends, cell 6 holds -1, cell 1 holds 0. -/
theorem witness_AddRules : Direct3 3 1 0 ∧ InBounds 3 ∧ InBounds 1 ∧ InDomain (w.cell 3 + w.cell 1) ∧ Direct3 4 6 0 ∧
    InBounds 6 ∧ ¬InDomain (w.cell 4 + w.cell 6) ∧ InDomain (w.cell 3 + 0) ∧ ¬InDomain (w.cell 3 + 1) := by decide

theorem witness_SubtractRules : Direct3 4 1 0 ∧ InDomain (w.cell 4 - w.cell 1) ∧ Direct3 3 6 0 ∧
    ¬InDomain (w.cell 3 - w.cell 6) ∧ InDomain (w.cell 4 - 0) ∧ ¬InDomain (w.cell 4 - 1) := by decide

theorem witness_MultiplyRules : Direct3 4 6 0 ∧ InDomain (w.cell 4 * w.cell 6) ∧ Direct3 3 2 0 ∧
    ¬InDomain (w.cell 3 * w.cell 2) ∧ InDomain (w.cell 4 * (-1)) ∧ ¬InDomain (w.cell 3 * 2) := by decide

/-- For `divide` and `modulo`: cell 1 holds 0, cell 6 holds -1; the zero divisor also with a destination outside. -/
theorem witness_DivideRules : Direct3 0 1 3100 ∧ InBounds 1 ∧ w.cell 1 = 0 ∧ Direct3 4 6 3100 ∧ w.cell 6 ≠ 0 ∧
    ¬InBounds 3100 ∧ Direct3 4 6 3099 ∧ InBounds 3099 := by decide

theorem witness_ModuloRules : Direct3 4 1 0 ∧ InBounds 4 ∧ InBounds 1 ∧ w.cell 1 = 0 ∧ Direct3 4 6 0 ∧ InBounds 6 ∧
    w.cell 6 ≠ 0 ∧ InBounds 0 := by decide

theorem witness_DivisionTruncatesTowardZero : (-1 : Int) ≠ 0 ∧ InDomain valueMin ∧ (2 : Int) ≠ 0 ∧ InDomain (-7) := by decide

theorem witness_CompareRules : Direct3 4 3 0 ∧ w.cell 4 < w.cell 3 ∧ Direct3 1 8 0 ∧ w.cell 1 = w.cell 8 ∧
    Direct3 1 6 0 ∧ w.cell 1 > w.cell 6 ∧ InBounds 1 ∧ InBounds 3 ∧ InBounds 4 ∧ InBounds 6 ∧ InBounds 8 ∧ InBounds 0 := by
  decide

theorem witness_BranchIfEqualRules : Direct2 3100 0 ∧ ¬InBounds 3100 ∧ Direct2 0 (-1) ∧ ¬InBounds (-1) ∧ Direct2 1 8 ∧
    w.cell 1 = w.cell 8 ∧ Direct2 0 3099 ∧ w.cell 0 ≠ w.cell 3099 ∧ InBounds 1 ∧ InBounds 8 ∧ InBounds 0 ∧ InBounds 3099 := by
  decide

theorem witness_BranchIfNotEqualRules : Direct2 3100 0 ∧ ¬InBounds 3100 ∧ Direct2 0 (-1) ∧ ¬InBounds (-1) ∧
    Direct2 0 3099 ∧ w.cell 0 ≠ w.cell 3099 ∧ Direct2 1 8 ∧ ¬(w.cell 1 ≠ w.cell 8) ∧ InBounds 1 ∧ InBounds 8 ∧ InBounds 0 ∧
    InBounds 3099 := by
  decide

/-- Under the indirect option the operands resolve too: cell 7 holds 3099, cell 5 holds 3100. -/
theorem witness_indirect_operands : effectiveAddress wIndirect (-8) = .ok 3099 ∧ effectiveAddress wIndirect (-6) = .ok 3100 ∧
    effectiveAddress wIndirect (-3100) = .ok 0 ∧ effectiveAddress wIndirect (-3101) = .ok (-3101) := by decide

theorem witness_DataIsNoOp : StepAdmitted (code 1999 [9200] []) ∧ InProgram (code 1999 [9200] []).pc ∧
    (code 1999 [9200] []).cell (code 1999 [9200] []).pc = 9200 := ⟨⟨by decide, by decide⟩, by decide, by decide⟩

theorem witness_BreakPauses : controlState w = some .paused ∧ controlState wRunning = some .running ∧
    StepAdmitted (code 1999 [9998] []) ∧ InProgram (code 1999 [9998] []).pc ∧
    (code 1999 [9998] []).cell (code 1999 [9998] []).pc = 9998 :=
  ⟨by decide, by decide, ⟨by decide, by decide⟩, by decide, by decide⟩

theorem witness_HaltStops : StepAdmitted (code 1000 [9999] []) ∧ InProgram (code 1000 [9999] []).pc ∧
    (code 1000 [9999] []).cell (code 1000 [9999] []).pc = 9999 :=
  ⟨⟨by decide, by decide⟩, by decide, by decide⟩

theorem witness_CommandTransitions : (∃ image, assemble w.indirectOperands "halt" = .ok image) ∧
    (∃ e, assemble w.indirectOperands "Halt" = .error e) ∧ controlState w = some .paused ∧
    controlState wRunning = some .running ∧ controlState wHalted = some .halted ∧ controlState wFaulted = some .faulted ∧
    InputVector.zero.InDomain ∧ (command (.stepOnce InputVector.zero) wRunning).1.fault = none ∧
    (command (.stepOnce InputVector.zero) w).1.fault ≠ none :=
  ⟨⟨[9999, 9999], by decide⟩, ⟨.syntaxError "Halt".toList none 1, by decide⟩, by decide, by decide, by decide, by decide,
    by decide, by decide, by decide⟩

theorem witness_LoadEstablishesState : [9001, valueMin, valueMax].length ≤ 1000 ∧
    (∀ v ∈ [9001, valueMin, valueMax], InDomain v) ∧ (List.replicate 1000 (9999 : Int)).length ≤ 1000 :=
  ⟨by decide, by decide, List.length_replicate.le⟩

theorem witness_LoadAndResetIsAtomic : assemble w.indirectOperands "x" = .error (.syntaxError "x".toList none 1) ∧
    assemble w.indirectOperands "data 1" = .ok [1, 9999] := by decide

theorem witness_ReadMemoryHasNoEffect : InBounds 0 ∧ InBounds 3099 ∧ ¬InBounds 3100 ∧ ¬InBounds (-1) := by decide

theorem witness_RunLoopStopsWithRunning : (runLoop 1 { code 1000 [9998] [] with running := true }).1.running = false ∧
    wRunning.running = true ∧ ∃ t, step wRunning = .next t :=
  ⟨by decide, by decide, witness_StepKeepsInvariant.2⟩

theorem witness_StepsReportTheirErrors : wRunning.running = true ∧ (∃ t, step wRunning = .next t ∧ t.fault = none) ∧
    ∃ t, step wFaults = .next t ∧ t.fault = faultOf .divisionByZero 1004 7 :=
  ⟨by decide, reach_some (x := none) (f := State.fault) (by decide), reach_some (f := State.fault) (by decide)⟩

theorem witness_RunLoopReportsItsError : wRunning.fault = none ∧ (runLoop 1 wRunning).1.fault = none ∧
    wFaults.fault = none ∧ (runLoop 2 wFaults).1.fault = faultOf .divisionByZero 1004 7 := by decide

theorem witness_StepTakesNextInputVector : ∃ t, step wRunning = .next t := witness_StepKeepsInvariant.2

theorem witness_CycleDelayAffectsNoStep : ∃ t, step wRunning = .next t := witness_StepKeepsInvariant.2

theorem witness_AssembledImageIsLoadable : assemble false "data 9007199254740991" = .ok [valueMax, 9999] := by decide

theorem witness_LabelsNameTheNextEmittedCell :
    ∃ records labels image, parse false "data 1 2\na:\nhalt".toList = .ok records ∧
      layout 1000 [] records = .ok labels ∧ emit false labels [] records = .ok image ∧
      records = [{ body := .data [.literal 1, .literal 2], line := 1 }] ++ { body := .label "a".toList, line := 2 } ::
        [{ body := .instr .halt [], line := 3 }, trailingHalt] :=
  ⟨[{ body := .data [.literal 1, .literal 2], line := 1 }, { body := .label "a".toList, line := 2 },
      { body := .instr .halt [], line := 3 }, trailingHalt], [("a".toList, 1002)], [1, 2, 9999, 9999],
    by decide, by decide, by decide, by decide⟩

theorem witness_StoredWordIsRunNext : StepAdmitted (code 1996 [] []) ∧ Memory.wf (code 1996 [] []).mem ∧
    (Instr.add valueMin valueMax 0).WellFormed ∧
    ∀ k : Nat, k < (Instr.add valueMin valueMax 0).length → InProgram ((code 1996 [] []).pc + k) :=
  ⟨⟨by decide, by decide⟩, by decide, by decide, by decide⟩

end Sys2Proof.Tests
end

section
/-! The model's own fields: no instruction writes them, and nothing the host or a program does writes `INDIRECT_OPERANDS`
(rule R10). -/

namespace Sys2Proof.Machine

variable {s t : State}

theorem SameOwn.indirectOperands_eq (h : SameOwn s t) : t.indirectOperands = s.indirectOperands := h.1

/-- However an instruction ends, the model's own fields stay. -/
theorem Ending.sameOwn {i : Instr} (h : Ending i s t) : SameOwn s t := by
  cases h with
  | stored | transferred | unchanged | paused | stopped | faulted => exact ⟨rfl, rfl, rfl, rfl⟩

/-- The model's own fields are, after a cycle, as its input refresh (rule R75) left them. -/
theorem cycle_sameOwn (h : cycle s = .next t) : SameOwn (refreshInput s) t := by
  rcases cycle_cases s with ⟨i, u, -, hu, hend, -⟩ | ⟨e, p, hu, -⟩ <;> cases hu.symm.trans h
  · exact hend.sameOwn
  · exact ⟨rfl, rfl, rfl, rfl⟩

theorem step_indirectOperands (h : step s = .next t) : t.indirectOperands = s.indirectOperands :=
  (cycle_sameOwn (admitted_of_step h).2).indirectOperands_eq

/-! ### What the host can do -/

@[simp] theorem load_indirectOperands (image : List Int) (s : State) :
    (load image s).indirectOperands = s.indirectOperands := rfl

@[simp] theorem loadAndReset_indirectOperands (text : String) (s : State) :
    (loadAndReset text s).1.indirectOperands = s.indirectOperands := by
  unfold loadAndReset
  split
  · rfl
  · exact load_indirectOperands _ s

@[simp] theorem stepOnce_indirectOperands (inputs : InputVector) (s : State) :
    (stepOnce inputs s).1.indirectOperands = s.indirectOperands := by
  rcases stepOnce_cases inputs s with ⟨t, hstep, hreply⟩ | hreply <;> rw [hreply]
  have hopt := step_indirectOperands hstep
  exact hopt

@[simp] theorem runCommand_indirectOperands (s : State) :
    (runCommand s).indirectOperands = s.indirectOperands := by
  unfold runCommand
  split <;> rfl

@[simp] theorem stopCommand_indirectOperands (s : State) :
    (stopCommand s).indirectOperands = s.indirectOperands := by
  unfold stopCommand
  split <;> rfl

@[simp] theorem command_indirectOperands (c : Command) (s : State) :
    (command c s).1.indirectOperands = s.indirectOperands := by
  cases c with
  | loadAndReset text => exact loadAndReset_indirectOperands text s
  | stepOnce inputs => exact stepOnce_indirectOperands inputs s
  | run => exact runCommand_indirectOperands s
  | stop => exact stopCommand_indirectOperands s
  | setCycleDelay | readMemory => rfl

@[simp] theorem loopStep_indirectOperands (s : State) :
    (loopStep s).1.indirectOperands = s.indirectOperands := by
  cases hrun : s.running with
  | true => rw [loopStep_running hrun, stepOnce_indirectOperands]
  | false => rw [loopStep_stopped hrun]

@[simp] theorem applyEvent_indirectOperands (e : Event) (s : State) :
    (applyEvent e s).1.indirectOperands = s.indirectOperands := by
  cases e with
  | command c => exact command_indirectOperands c s
  | loopTurn => exact loopStep_indirectOperands s
  | present inputs => rfl

/-- Settles O15, by induction on the events: each one keeps the option. -/
theorem optionIsNeverWritten : Obligations.OptionIsNeverWritten := by
  intro es
  induction es with
  | nil => exact fun _ => rfl
  | cons e es ih =>
    intro s
    calc (applyEvents (e :: es) s).1.indirectOperands
        = (applyEvents es (applyEvent e s).1).1.indirectOperands := by rw [applyEvents_cons_state]
      _ = (applyEvent e s).1.indirectOperands := ih _
      _ = s.indirectOperands := applyEvent_indirectOperands e s

end Sys2Proof.Machine
end

section
/-! Control state, flag by flag: the table of rule R24, and what each command of section 4 does to it. -/

namespace Sys2Proof.Machine

variable {s t : State}

/-! ### The table of rule R24 -/

theorem controlState_eq_paused :
    controlState s = some .paused ↔ s.running = false ∧ s.halted = false ∧ s.fault = none := by
  unfold controlState
  cases s.running <;> cases s.halted <;> cases s.fault <;> simp

theorem controlState_eq_running :
    controlState s = some .running ↔ s.running = true ∧ s.halted = false ∧ s.fault = none := by
  unfold controlState
  cases s.running <;> cases s.halted <;> cases s.fault <;> simp

theorem controlState_eq_halted :
    controlState s = some .halted ↔ s.running = false ∧ s.halted = true ∧ s.fault = none := by
  unfold controlState
  cases s.running <;> cases s.halted <;> cases s.fault <;> simp

theorem controlState_eq_faulted :
    controlState s = some .faulted ↔ s.running = false ∧ s.halted = false ∧ s.fault ≠ none := by
  unfold controlState
  cases s.running <;> cases s.halted <;> cases s.fault <;> simp

/-! ### Rejected and admitted steps (rule R28) -/

theorem step_of_halted (h : controlState s = some .halted) : step s = .refused .stepWhileHalted := by
  simp only [step, admitCycle, h]

theorem step_of_faulted (h : controlState s = some .faulted) : step s = .refused .stepWhileFaulted := by
  simp only [step, admitCycle, h]

theorem stepOnce_of_refused {inputs : InputVector} {r : Refusal} (h : step { s with input := inputs } = .refused r) :
    stepOnce inputs s = (s, .rejected) := by
  simp only [stepOnce, h]

/-- The control state does not depend on the presented vector, so the vector of the command changes no rejection. -/
theorem stepOnce_of_halted (inputs : InputVector) (h : controlState s = some .halted) :
    stepOnce inputs s = (s, .rejected) :=
  stepOnce_of_refused (step_of_halted (s := { s with input := inputs }) h)

theorem stepOnce_of_faulted (inputs : InputVector) (h : controlState s = some .faulted) :
    stepOnce inputs s = (s, .rejected) :=
  stepOnce_of_refused (step_of_faulted (s := { s with input := inputs }) h)

/-- An admitted step always answers a next state. -/
theorem step_next_of_admitted (h : StepAdmitted s) : ∃ t, step s = .next t := by
  rw [step_of_admitted h]
  rcases cycle_cases s with ⟨-, t, -, ht, -⟩ | ⟨e, p, ht, -⟩ <;> exact ⟨_, ht⟩

/-- Settles O17: the rejection is decided by the control state, before the inputs are looked at. -/
theorem stepRejectedWhenStopped : Obligations.StepRejectedWhenStopped := fun _ inputs =>
  ⟨fun h => ⟨step_of_halted h, stepOnce_of_halted inputs h⟩,
    fun h => ⟨step_of_faulted h, stepOnce_of_faulted inputs h⟩⟩

/-! ### Loads and reads -/

theorem loadAndReset_error {text : String} {e : AsmError} (h : assemble s.indirectOperands text = .error e) :
    loadAndReset text s = (s, .assemblyError e) := by
  simp only [loadAndReset, h]

theorem loadAndReset_ok {text : String} {image : List Int} (h : assemble s.indirectOperands text = .ok image) :
    loadAndReset text s = (load image s, .done) := by
  simp only [loadAndReset, h]

/-- Settles O47: the image is assembled in full before anything is loaded. -/
theorem loadAndResetIsAtomic : Obligations.LoadAndResetIsAtomic := fun _ _ =>
  ⟨fun _ h => loadAndReset_error h, fun _ h => loadAndReset_ok h⟩

theorem readMemory_inBounds {a : Int} (h : InBounds a) : readMemory a s = .value (s.cell a) := by
  simp only [readMemory, memRead_ok h]

theorem readMemory_outOfBounds {a : Int} (h : ¬InBounds a) : readMemory a s = .readOutOfBounds a := by
  simp only [readMemory, memRead_error h]

/-- Settles O48: the command pairs the reply of `readMemory` with the state it found. -/
theorem readMemoryHasNoEffect : Obligations.ReadMemoryHasNoEffect := fun s _ =>
  ⟨fun h => congrArg (Prod.mk s) (readMemory_inBounds h), fun h => congrArg (Prod.mk s) (readMemory_outOfBounds h)⟩

/-- Settles O14: the refresh of rule R75 takes the vector, and nothing after it writes the model's own fields. -/
theorem stepTakesNextInputVector : Obligations.StepTakesNextInputVector := by
  intro s t h
  obtain ⟨hopt, hinput, hclock, hdelay⟩ := cycle_sameOwn (admitted_of_step h).2
  exact ⟨hinput, hclock, hopt, hdelay⟩

end Sys2Proof.Machine
end

section
/-! What the ending of an instruction and of a step makes of `pc`, the flags and the control state. -/

namespace Sys2Proof.Machine

variable {s t : State} {i : Instr}

/-! ### One instruction -/

/-- An instruction that moves `pc` writes its label operand there and no cell (rule R77). -/
theorem Ending.pc_cases (h : Ending i s t) :
    t.pc = s.pc ∨ transferTarget i = some t.pc ∧ SameMemory s t := by
  cases h with
  | transferred l htarget => exact .inr ⟨htarget, fun _ => rfl⟩
  | stored | unchanged | paused | stopped | faulted => exact .inl rfl

/-- No instruction sets `running` (rule R22). -/
theorem Ending.running_of_running (h : Ending i s t) (ht : t.running = true) : s.running = true := by
  cases h with
  | stored | transferred | unchanged => exact ht
  | paused | stopped | faulted => cases ht

/-- Only `halt` writes `halted` (rule R23). -/
theorem Ending.halted_cases (h : Ending i s t) : t.halted = s.halted ∨ i = .halt ∧ t.halted = true := by
  cases h with
  | stopped hi => exact .inr ⟨hi, rfl⟩
  | stored | transferred | unchanged | paused | faulted => exact .inl rfl

/-- No instruction clears a fault record: it keeps the one it found or records its own. -/
theorem Ending.fault_cases (h : Ending i s t) : t.fault = s.fault ∨ t.fault ≠ none := by
  cases h with
  | faulted => exact .inr nofun
  | stored | transferred | unchanged | paused | stopped => exact .inl rfl

/-- Settles O25, ending by ending. -/
theorem execWritesControlOnlyAsNamed : Obligations.ExecWritesControlOnlyAsNamed := by
  intro i s t h
  have hend := ending_of_exec h
  refine ⟨hend.pc_cases.imp_right And.left, fun hpc => (hend.pc_cases.resolve_left hpc).2, hend.running_of_running,
    hend.halted_cases, fun ht => ?_, hend.sameOwn⟩
  rcases hend.fault_cases with hkept | hraised
  · exact hkept ▸ ht
  · exact absurd ht hraised

theorem system_of_storeAddress {a : Int} (h : storeAddress i s = some a) : i ≠ .halt ∧ i ≠ .breakRun := by
  constructor <;> rintro rfl <;> cases h

theorem system_of_transferTarget {l : Int} (h : transferTarget i = some l) : i ≠ .halt ∧ i ≠ .breakRun := by
  constructor <;> rintro rfl <;> cases h

/-- The control state after an instruction that raised no error: only `halt` and `break` write a flag (rules R128, R129). -/
theorem Ending.controlState_of_no_fault (h : Ending i s t) (hhalted : s.halted = false) (ht : t.fault = none) :
    controlState t = if i = .halt then some .halted else if i = .breakRun then some .paused else controlState s := by
  cases h with
  | stored a v hstore =>
    obtain ⟨hnh, hnb⟩ := system_of_storeAddress hstore
    rw [if_neg hnh, if_neg hnb]
    rfl
  | transferred l htarget =>
    obtain ⟨hnh, hnb⟩ := system_of_transferTarget htarget
    rw [if_neg hnh, if_neg hnb]
    rfl
  | unchanged _ hnb hnh => rw [if_neg hnh, if_neg hnb]
  | paused hi =>
    subst hi
    rw [if_neg nofun, if_pos rfl]
    exact controlState_eq_paused.2 ⟨rfl, hhalted, ht⟩
  | stopped hi =>
    rw [if_pos hi]
    exact controlState_eq_halted.2 ⟨rfl, rfl, ht⟩
  | faulted => cases ht

/-! ### One step -/

/-- A step that ends with a fault recorded ends in `faulted` (rule R132). -/
theorem step_controlState_of_fault (h : step s = .next t) (ht : t.fault ≠ none) : controlState t = some .faulted := by
  obtain ⟨hadm, hcycle⟩ := admitted_of_step h
  obtain ⟨hhalted, hfault⟩ := flags_of_admitted hadm
  rcases cycle_cases s with ⟨i, u, -, hu, hend, -⟩ | ⟨e, p, hu, -⟩ <;> cases hu.symm.trans hcycle
  · cases hend with
    | faulted => exact controlState_eq_faulted.2 ⟨rfl, hhalted, ht⟩
    | stored | transferred | unchanged | paused | stopped => exact absurd hfault ht
  · exact controlState_eq_faulted.2 ⟨rfl, hhalted, ht⟩

/-- A step that ends without a fault has run an instruction, which decides the control state. -/
theorem step_controlState_of_no_fault (h : step s = .next t) (ht : t.fault = none) :
    ∃ i u, fetchInstr (refreshInput s) = .ok (i, u) ∧
      controlState t = if i = .halt then some .halted else if i = .breakRun then some .paused else controlState s := by
  obtain ⟨hadm, hcycle⟩ := admitted_of_step h
  rcases cycle_cases s with ⟨i, u, hfetch, hu, hend, -⟩ | ⟨e, p, hu, -⟩ <;> cases hu.symm.trans hcycle
  · exact ⟨i, _, hfetch, hend.controlState_of_no_fault (flags_of_admitted hadm).1 ht⟩
  · cases ht

/-! ### One command -/

theorem load_controlState (image : List Int) (s : State) : controlState (load image s) = some .paused := rfl

theorem runCommand_of_paused (h : controlState s = some .paused) : runCommand s = s.withFlags true s.halted := if_pos h

theorem runCommand_controlState (h : controlState s = some .paused) : controlState (runCommand s) = some .running := by
  obtain ⟨-, hhalted, hfault⟩ := controlState_eq_paused.1 h
  rw [runCommand_of_paused h]
  exact controlState_eq_running.2 ⟨rfl, hhalted, hfault⟩

theorem runCommand_of_not_paused (h : controlState s ≠ some .paused) : runCommand s = s := if_neg h

theorem stopCommand_of_running (h : controlState s = some .running) : stopCommand s = s.withFlags false s.halted := if_pos h

theorem stopCommand_controlState (h : controlState s = some .running) : controlState (stopCommand s) = some .paused := by
  obtain ⟨-, hhalted, hfault⟩ := controlState_eq_running.1 h
  rw [stopCommand_of_running h]
  exact controlState_eq_paused.2 ⟨rfl, hhalted, hfault⟩

theorem stopCommand_of_not_running (h : controlState s ≠ some .running) : stopCommand s = s := if_neg h

/-- A `stepOnce` that is admitted is the step with the given vector. -/
theorem stepOnce_admitted {inputs : InputVector} (hinputs : inputs.InDomain)
    (h : controlState s = some .paused ∨ controlState s = some .running) :
    ∃ t, step { s with input := inputs } = .next t ∧ (stepOnce inputs s).1 = t := by
  obtain ⟨t, ht⟩ := step_next_of_admitted (s := { s with input := inputs }) ⟨h, hinputs⟩
  exact ⟨t, ht, by rw [stepOnce_next ht]⟩

/-- Settles O45, row by row of rule R36. -/
theorem commandTransitions : Obligations.CommandTransitions := by
  intro s
  refine ⟨?load, ?failedLoad, runCommand_controlState, runCommand_of_not_paused, stopCommand_controlState,
    stopCommand_of_not_running, fun _ => ⟨fun _ => rfl, rfl, rfl, rfl, rfl⟩, fun _ => rfl, ?rejected, ?stepped⟩
  case load =>
    rintro text ⟨image, h⟩
    rw [command, loadAndReset_ok h]
    exact load_controlState image s
  case failedLoad =>
    rintro text ⟨e, h⟩
    rw [command, loadAndReset_error h]
  case rejected =>
    rintro inputs (h | h)
    · exact stepOnce_of_halted inputs h
    · exact stepOnce_of_faulted inputs h
  case stepped =>
    intro inputs hinputs h
    obtain ⟨t, hstep, ht⟩ := stepOnce_admitted hinputs h
    rw [command, ht]
    exact ⟨step_controlState_of_fault hstep, step_controlState_of_no_fault hstep⟩

end Sys2Proof.Machine
end

section
/-! The invariant: each state update under the condition that keeps it, then instruction, step, command, event and sequence
of events. -/

namespace Sys2Proof.Machine

variable {s t : State} {i : Instr}

theorem MachineInv.mem_wf (h : MachineInv s) : Memory.wf s.mem := h.1

theorem MachineInv.pc_inDomain (h : MachineInv s) : InDomain s.pc := h.2.1

theorem MachineInv.input_inDomain (h : MachineInv s) : s.input.InDomain := h.2.2.2

/-! ### State updates -/

theorem MachineInv.withPc (h : MachineInv s) {p : Int} (hp : InDomain p) : MachineInv (s.withPc p) := by
  obtain ⟨hmem, -, hflags, hinput⟩ := h
  exact ⟨hmem, hp, hflags, hinput⟩

theorem MachineInv.store (h : MachineInv s) {a v : Int} (ha : InBounds a) (hv : InDomain v) :
    MachineInv (s.store a v) := by
  obtain ⟨hmem, hpc, hflags, hinput⟩ := h
  have haddr : ((a.toNat : Nat) : Int) < Config.totalMemorySize := by
    rw [Int.toNat_of_nonneg ha.1]
    exact ha.2
  exact ⟨Memory.write_wf hmem haddr hv, hpc, hflags, hinput⟩

/-- Flags that are not both set are legal while no fault is recorded. -/
theorem MachineInv.withFlags (h : MachineInv s) (hfault : s.fault = none) {running halted : Bool}
    (hboth : ¬(running = true ∧ halted = true)) : MachineInv (s.withFlags running halted) := by
  obtain ⟨hmem, hpc, -, hinput⟩ := h
  exact ⟨hmem, hpc, ⟨hboth, absurd hfault⟩, hinput⟩

theorem MachineInv.enterFault (h : MachineInv s) (hhalted : s.halted = false) (e : Raised) (start : Int) :
    MachineInv (enterFault e start s) := by
  obtain ⟨hmem, hpc, -, hinput⟩ := h
  exact ⟨hmem, hpc, ⟨fun hboth => Bool.false_ne_true hboth.1, fun _ => ⟨rfl, hhalted⟩⟩, hinput⟩

theorem MachineInv.refreshInput (h : MachineInv s) : MachineInv (refreshInput s) := by
  obtain ⟨hmem, hpc, hflags, hinput⟩ := h
  exact ⟨refreshInput_wf hmem hinput, hpc, hflags, hostInput_inDomain _⟩

/-- The host presents a vector that keeps the domain (rule R148). -/
theorem MachineInv.presented (h : MachineInv s) {inputs : InputVector} (hinputs : inputs.InDomain) :
    MachineInv { s with input := inputs } := by
  obtain ⟨hmem, hpc, hflags, -⟩ := h
  exact ⟨hmem, hpc, hflags, hinputs⟩

/-! ### Instruction and step -/

/-- The target of a transfer is an operand, so it is the whole content of a cell (rules R64 and R72). -/
theorem mem_operands_of_transferTarget {l : Int} (h : transferTarget i = some l) : l ∈ i.operands := by
  cases i <;> cases h <;> simp [Instr.operands]

theorem Ending.machineInv (h : Ending i s t) (hinv : MachineInv s) (hhalted : s.halted = false) (hfault : s.fault = none)
    (hoperands : ∀ v ∈ i.operands, InDomain v) : MachineInv t := by
  cases h with
  | stored a v _ _ ha hv => exact hinv.store ha hv
  | transferred l htarget => exact hinv.withPc (hoperands l (mem_operands_of_transferTarget htarget))
  | unchanged => exact hinv
  | paused => exact hinv.withFlags hfault (by simp)
  | stopped => exact hinv.withFlags hfault (by simp)
  | faulted e => exact hinv.enterFault hhalted e _

/-- Fetches move `pc` upwards and never past the end of program memory (rule R74), so they keep it in the domain. -/
theorem inDomain_of_fetched {p q : Int} (hp : InDomain p) (hle : p ≤ q) (hq : q = p ∨ q ≤ Config.programEnd) :
    InDomain q := by
  simp only [InDomain, valueMin, valueMax, Config.programEnd] at hp hq ⊢
  omega

/-- Every step keeps the invariant: what it runs was fetched from a canonical memory, and what it stores was checked. -/
theorem MachineInv.step (h : MachineInv s) (hstep : step s = .next t) : MachineInv t := by
  obtain ⟨hadm, hcycle⟩ := admitted_of_step hstep
  obtain ⟨hhalted, hfault⟩ := flags_of_admitted hadm
  have hfresh := h.refreshInput
  rcases cycle_cases s with ⟨i, u, -, hu, hend, -, hlen, hcells⟩ | ⟨e, p, hu, hle, -, hp⟩ <;>
    cases hu.symm.trans hcycle
  · have hpc : InDomain (s.pc + i.length) :=
      inDomain_of_fetched h.pc_inDomain (Int.le_add_of_nonneg_right (Int.natCast_nonneg _)) (.inr hlen)
    refine hend.machineInv (hfresh.withPc hpc) hhalted hfault fun v hv => ?_
    obtain ⟨a, rfl⟩ := hcells v hv
    exact Memory.read_inDomain hfresh.mem_wf a
  · have hpc : InDomain p := inDomain_of_fetched h.pc_inDomain hle hp
    exact (hfresh.withPc hpc).enterFault hhalted e _

/-! ### Commands, turns and events -/

/-- A load that fits leaves a canonical memory and the flags of `paused` (rule R151). -/
theorem MachineInv.load (h : MachineInv s) {image : List Int} (hlen : image.length ≤ 1000)
    (himage : ∀ v ∈ image, InDomain v) : MachineInv (load image s) := by
  have hempty : Memory.wf [] := ⟨.nil, nofun⟩
  have hpc : InDomain Config.programStart := by decide
  have hfits : ((Config.programStart.toNat : Nat) : Int) + image.length ≤ Config.totalMemorySize := by
    simp only [Config.programStart, Config.totalMemorySize]
    omega
  exact ⟨Memory.writeList_wf hempty hfits himage, hpc, legalFlags_iff.2 nofun, h.input_inDomain⟩

/-- Every value of an assembled image lies in the domain: literals are checked when parsed, labels are addresses inside the
image, and opcodes are fixed (rule R95). -/
theorem assemble_inDomain {b : Bool} {text : String} {image : List Int} (h : assemble b text = .ok image) :
    ∀ v ∈ image, InDomain v := by
  obtain ⟨records, labels, hparse, hlayout, hemit, hlen⟩ := assemble_ok h
  have hsize : image.length = totalSize records := emit_length (parse_ok hparse).1 hemit
  have hlabels : ∀ p ∈ labels, InDomain p.2 := fun p hp => by
    rcases layout_range hlayout p hp with hnil | ⟨hlow, hhigh⟩
    · cases hnil
    · exact ⟨by simp only [valueMin]; omega, by simp only [valueMax]; omega⟩
  exact emit_inDomain (parse_ok hparse).1 hlabels (List.forall_mem_nil _) hemit

theorem MachineInv.loadAndReset (h : MachineInv s) (text : String) : MachineInv (loadAndReset text s).1 := by
  rcases himage : assemble s.indirectOperands text with e | image
  · rwa [loadAndReset_error himage]
  · rw [loadAndReset_ok himage]
    obtain ⟨-, -, -, -, -, hlen⟩ := assemble_ok himage
    exact h.load hlen (assemble_inDomain himage)

theorem MachineInv.stepOnce (h : MachineInv s) {inputs : InputVector} (hinputs : inputs.InDomain) :
    MachineInv (stepOnce inputs s).1 := by
  rcases stepOnce_cases inputs s with ⟨t, hstep, hreply⟩ | hreply <;> rw [hreply]
  · exact (h.presented hinputs).step hstep
  · exact h

theorem MachineInv.runCommand (h : MachineInv s) : MachineInv (runCommand s) := by
  by_cases hpaused : controlState s = some .paused
  · obtain ⟨-, hhalted, hfault⟩ := controlState_eq_paused.1 hpaused
    rw [runCommand_of_paused hpaused]
    exact h.withFlags hfault (by simp [hhalted])
  · rwa [runCommand_of_not_paused hpaused]

theorem MachineInv.stopCommand (h : MachineInv s) : MachineInv (stopCommand s) := by
  by_cases hrunning : controlState s = some .running
  · obtain ⟨-, -, hfault⟩ := controlState_eq_running.1 hrunning
    rw [stopCommand_of_running hrunning]
    exact h.withFlags hfault (by simp)
  · rwa [stopCommand_of_not_running hrunning]

theorem MachineInv.command (h : MachineInv s) {c : Command} (hc : (Event.command c).Conforms) :
    MachineInv (command c s).1 := by
  cases c with
  | loadAndReset text => exact h.loadAndReset text
  | stepOnce inputs => exact h.stepOnce hc
  | run => exact h.runCommand
  | stop => exact h.stopCommand
  | setCycleDelay | readMemory => exact h

/-- A turn of the run loop steps with the presented vector, which the invariant keeps in the domain. -/
theorem MachineInv.loopStep (h : MachineInv s) : MachineInv (loopStep s).1 := by
  cases hrun : s.running with
  | true =>
    rw [loopStep_running hrun]
    exact h.stepOnce h.input_inDomain
  | false => rwa [loopStep_stopped hrun]

theorem MachineInv.applyEvent (h : MachineInv s) {e : Event} (he : e.Conforms) : MachineInv (applyEvent e s).1 := by
  cases e with
  | command c => exact h.command he
  | loopTurn => exact h.loopStep
  | present inputs => exact h.presented he

/-- Settles O21, by induction on the events. -/
theorem eventsKeepInvariant : Obligations.EventsKeepInvariant := by
  intro es
  induction es with
  | nil => exact fun _ _ h => h
  | cons e es ih =>
    intro s hconforms h
    rw [applyEvents_cons_state]
    exact ih _ (fun f hf => hconforms f (List.mem_cons_of_mem e hf)) (h.applyEvent (hconforms e List.mem_cons_self))

end Sys2Proof.Machine
end

section
/-! The cycle delay (rule R163): every part of a step commutes with setting it. -/

namespace Sys2Proof.Machine

variable {s t : State} (ms : Int)

/-- The state with another cycle delay, as `setCycleDelay` leaves it (rule R32). -/
def State.withCycleDelay (s : State) (ms : Int) : State := { s with cycleDelayMs := ms }

/-- The answer of a fetch, with another cycle delay in the state it reached. -/
def delayFetched {α : Type} : Except (Raised × State) (α × State) → Except (Raised × State) (α × State)
  | .ok (x, s) => .ok (x, s.withCycleDelay ms)
  | .error (e, s) => .error (e, s.withCycleDelay ms)

theorem command_setCycleDelay (s : State) : (command (.setCycleDelay ms) s).1 = s.withCycleDelay ms := rfl

/-! ### Access -/

@[simp] theorem memRead_withCycleDelay (s : State) (a : Int) : memRead (s.withCycleDelay ms) a = memRead s a := rfl

@[simp] theorem effectiveAddress_withCycleDelay (s : State) (raw : Int) :
    effectiveAddress (s.withCycleDelay ms) raw = effectiveAddress s raw := rfl

@[simp] theorem pointerTarget_withCycleDelay (s : State) (raw : Int) :
    pointerTarget (s.withCycleDelay ms) raw = pointerTarget s raw := rfl

@[simp] theorem memWrite_withCycleDelay (s : State) (a v : Int) :
    memWrite (s.withCycleDelay ms) a v = (·.withCycleDelay ms) <$> memWrite s a v := by
  unfold memWrite
  split
  · split <;> rfl
  · rfl

@[simp] theorem branchTo_withCycleDelay (taken : Bool) (l : Int) (s : State) :
    branchTo taken l (s.withCycleDelay ms) = (branchTo taken l s).withCycleDelay ms := by
  cases taken <;> rfl

/-! ### Instructions -/

theorem computeAddresses_withCycleDelay (f : Int → Int → Except Raised Int) (a b r : Int) (s : State) :
    computeAddresses f a b r (s.withCycleDelay ms) = (·.withCycleDelay ms) <$> computeAddresses f a b r s := by
  simp only [computeAddresses, map_bind, effectiveAddress_withCycleDelay, memRead_withCycleDelay,
    memWrite_withCycleDelay]

theorem computeConstant_withCycleDelay (f : Int → Int → Except Raised Int) (a b r : Int) (s : State) :
    computeConstant f a b r (s.withCycleDelay ms) = (·.withCycleDelay ms) <$> computeConstant f a b r s := by
  simp only [computeConstant, map_bind, effectiveAddress_withCycleDelay, memRead_withCycleDelay,
    memWrite_withCycleDelay]

theorem branchAddresses_withCycleDelay (test : Int → Int → Bool) (a b l : Int) (s : State) :
    branchAddresses test a b l (s.withCycleDelay ms) = (·.withCycleDelay ms) <$> branchAddresses test a b l s := by
  simp only [branchAddresses, map_bind, effectiveAddress_withCycleDelay, memRead_withCycleDelay,
    branchTo_withCycleDelay, Except.map_ok]

theorem branchConstant_withCycleDelay (test : Int → Int → Bool) (a b l : Int) (s : State) :
    branchConstant test a b l (s.withCycleDelay ms) = (·.withCycleDelay ms) <$> branchConstant test a b l s := by
  simp only [branchConstant, map_bind, effectiveAddress_withCycleDelay, memRead_withCycleDelay,
    branchTo_withCycleDelay, Except.map_ok]

theorem settle_withCycleDelay (o : Opcode) {c d : Except Raised State} (hd : d = (·.withCycleDelay ms) <$> c)
    (h : settle o s c = .next t) : settle o (s.withCycleDelay ms) d = .next (t.withCycleDelay ms) := by
  subst hd
  cases c <;> cases h <;> rfl

theorem exec_withCycleDelay {i : Instr} (h : exec i s = .next t) :
    exec i (s.withCycleDelay ms) = .next (t.withCycleDelay ms) := by
  cases i with
  | copyToFrom | copyToFromConstant | copyToFromAddress | copyIntoAddress | copyAddressOfLabel =>
    refine settle_withCycleDelay ms _ ?_ h
    simp only [map_bind, effectiveAddress_withCycleDelay, pointerTarget_withCycleDelay, memRead_withCycleDelay,
      memWrite_withCycleDelay]
  | add | subtract | multiply | divide | modulo | compare =>
    exact settle_withCycleDelay ms _ (computeAddresses_withCycleDelay ms _ _ _ _ s) h
  | addConstant | subtractConstant | multiplyConstant | divideConstant | moduloConstant | compareConstant =>
    exact settle_withCycleDelay ms _ (computeConstant_withCycleDelay ms _ _ _ _ s) h
  | branchIfEqual | branchIfNotEqual =>
    exact settle_withCycleDelay ms _ (branchAddresses_withCycleDelay ms _ _ _ _ s) h
  | branchIfEqualConstant | branchIfNotEqualConstant =>
    exact settle_withCycleDelay ms _ (branchConstant_withCycleDelay ms _ _ _ _ s) h
  | jumpTo | data | breakRun | halt =>
    cases h
    rfl

/-! ### Fetch and step -/

theorem fetchCell_withCycleDelay_ok (h : InProgram s.pc) : fetchCell (s.withCycleDelay ms) =
    .ok (s.cell s.pc, (s.withPc (s.pc + 1)).withCycleDelay ms) := fetchCell_ok (s := s.withCycleDelay ms) h

theorem fetchCell_withCycleDelay_error (h : ¬InProgram s.pc) : fetchCell (s.withCycleDelay ms) =
    .error { cause := .programCounterOutOfRange, info := s.pc } := fetchCell_error (s := s.withCycleDelay ms) h

theorem fetchCells_withCycleDelay (n : Nat) (s : State) :
    fetchCells n (s.withCycleDelay ms) = delayFetched ms (fetchCells n s) := by
  induction n generalizing s with
  | zero => rfl
  | succ n ih =>
    by_cases hin : InProgram s.pc
    · simp only [fetchCells, fetchCell_ok hin, fetchCell_withCycleDelay_ok ms hin, ih]
      rcases fetchCells n (s.withPc (s.pc + 1)) with e | ⟨vs, u⟩ <;> rfl
    · simp only [fetchCells, fetchCell_error hin, fetchCell_withCycleDelay_error ms hin]
      rfl

theorem fetchInstr_withCycleDelay (s : State) :
    fetchInstr (s.withCycleDelay ms) = delayFetched ms (fetchInstr s) := by
  by_cases hin : InProgram s.pc
  · simp only [fetchInstr, fetchCell_ok hin, fetchCell_withCycleDelay_ok ms hin, fetchCells_withCycleDelay]
    rcases Opcode.ofCode? (s.cell s.pc) with - | o
    · rfl
    · dsimp only
      rcases fetchCells o.arity (s.withPc (s.pc + 1)) with e | ⟨raws, u⟩ <;> rfl
  · simp only [fetchInstr, fetchCell_error hin, fetchCell_withCycleDelay_error ms hin]
    rfl

theorem refreshInput_withCycleDelay (s : State) :
    refreshInput (s.withCycleDelay ms) = (refreshInput s).withCycleDelay ms := rfl

theorem cycle_withCycleDelay (h : cycle s = .next t) : cycle (s.withCycleDelay ms) = .next (t.withCycleDelay ms) := by
  unfold cycle at h ⊢
  rw [refreshInput_withCycleDelay, fetchInstr_withCycleDelay]
  rcases hfetch : fetchInstr (refreshInput s) with ⟨e, u⟩ | ⟨i, u⟩ <;> rw [hfetch] at h
  · cases h
    rfl
  · exact exec_withCycleDelay ms h

/-- Settles O52: neither the admission of a step nor its cycle reads the delay. -/
theorem cycleDelayAffectsNoStep : Obligations.CycleDelayAffectsNoStep := by
  intro s t ms h
  obtain ⟨hadm, hcycle⟩ := admitted_of_step h
  have hadm' : StepAdmitted (s.withCycleDelay ms) := hadm
  exact (step_of_admitted hadm').trans (cycle_withCycleDelay ms hcycle)

end Sys2Proof.Machine
end

section
/-! Memory by its checked accesses, the input refresh and the address map (20_memory.md). -/

namespace Sys2Proof.Machine

variable {s : State} {a v : Int}

/-- Settles O20: `MachineInv.step`, by the cases of a cycle and of an ending. -/
theorem stepKeepsInvariant : Obligations.StepKeepsInvariant := fun _ _ hinv hstep => hinv.step hstep

/-! ### Store -/

theorem store_sameMemoryBut (ha : InBounds a) (v : Int) : SameMemoryBut s (s.store a v) a :=
  fun _ hb => read_store_other ha.1 hb v

/-- A store whose checks passed keeps the canonical form. -/
theorem store_wf (hm : Memory.wf s.mem) (ha : InBounds a) (hv : InDomain v) : Memory.wf (s.store a v).mem := by
  have haddr : ((a.toNat : Nat) : Int) < Config.totalMemorySize := (Int.toNat_of_nonneg ha.1).trans_lt ha.2
  exact Memory.write_wf hm haddr hv

theorem memRead_store_same (hm : Memory.wf s.mem) (ha : InBounds a) (v : Int) : memRead (s.store a v) a = .ok v := by
  rw [memRead_ok ha, cell_store hm]

/-- Settles O6: the outcome of each check, and for a write that passes both what its store does. -/
theorem memoryAccessPrimitives : Obligations.MemoryAccessPrimitives := by
  intro s a v hm
  refine ⟨memRead_error, memRead_ok, memWrite_outOfBounds, memWrite_invalidValue, fun ha hv => ?_⟩
  exact ⟨s.store a v, memWrite_ok ha hv, memRead_store_same hm ha v, store_sameMemoryBut ha v, rfl, ⟨rfl, rfl, rfl⟩,
    ⟨rfl, rfl, rfl, rfl⟩, store_wf hm ha hv⟩

/-- Settles O11: the fetch passes its check and reads the stored cell. -/
theorem storeIntoCodeIsFetched : Obligations.StoreIntoCodeIsFetched := by
  intro s a v hm ha
  have hfetch := fetchCell_ok (s := (s.store a v).withPc a) ha
  rwa [State.withPc_cell, State.withPc_pc, cell_store hm, State.withPc_withPc] at hfetch

/-! ### Input refresh -/

/-- The refresh puts the `k`-th value of the presented vector in the `k`-th input cell (rule R48). -/
theorem read_refreshInput_inputCell (hm : Memory.wf s.mem) (k : Nat) (hk : k < 9) :
    Memory.read (refreshInput s).mem (Config.inputStart.toNat + k) = s.input.values[k]'hk :=
  Memory.read_writeList_same hm.1 _ _ hk

/-- Settles O13: the nine input cells one by one, then the frame. -/
theorem refreshWritesInputCells : Obligations.RefreshWritesInputCells := by
  intro s hm
  have hcell := read_refreshInput_inputCell hm
  have hother : ∀ b : Nat, b < 2000 ∨ 2009 ≤ b → Memory.read (refreshInput s).mem b = Memory.read s.mem b := by
    intro b hb
    refine read_refreshInput_other ?_
    simp only [InputCell, Config.inputStart, Config.keycodeDepth]
    omega
  exact ⟨hcell 0 (by decide), hcell 1 (by decide), hcell 2 (by decide), hcell 3 (by decide), hcell 4 (by decide),
    hcell 5 (by decide), hcell 6 (by decide), hcell 7 (by decide), hcell 8 (by decide), hother, refreshInput_pc s,
    ⟨rfl, rfl, rfl⟩, refreshInput_input s, refreshInput_inputClock s, refreshInput_indirectOperands s,
    refreshInput_cycleDelayMs s⟩

/-! ### Regions -/

/-- The first address of a region (rule R47). -/
def Region.start : Region → Int
  | .working => Config.workingStart
  | .program => Config.programStart
  | .input => Config.inputStart
  | .video => Config.videoStart
  | .audio => Config.audioStart

/-- The address behind the last one of a region (rule R47). -/
def Region.stop : Region → Int
  | .working => Config.workingEnd
  | .program => Config.programEnd
  | .input => Config.inputEnd
  | .video => Config.videoEnd
  | .audio => Config.audioEnd

/-- Each region is an interval. The tests of `regionOf` come one after the other, and no two of them overlap. -/
theorem regionOf_eq_some {r : Region} : regionOf a = some r ↔ r.start ≤ a ∧ a < r.stop := by
  unfold regionOf
  constructor
  · intro h
    split_ifs at h <;> cases h <;> assumption
  · intro h
    cases r with
    | working | program | input | video | audio => grind [Region.start, Region.stop]

/-- The regions leave no gap: what lies in none of them is outside memory. -/
theorem inBounds_iff_regionOf : InBounds a ↔ regionOf a ≠ none := by
  unfold regionOf
  split_ifs <;> grind

/-- Fetch may read exactly the program region (rules R47 and R74). -/
theorem inProgram_iff : InProgram a ↔ regionOf a = some .program := (regionOf_eq_some (r := .program)).symm

/-- A fetch answers a cell exactly where its check passes (rule R74). -/
theorem fetchCell_isOk_iff : (∃ v t, fetchCell s = .ok (v, t)) ↔ InProgram s.pc := by
  refine ⟨fun ⟨v, t, h⟩ => ?_, fun h => ⟨_, _, fetchCell_ok h⟩⟩
  by_contra hout
  rw [fetchCell_error hout] at h
  cases h

/-- Settles O9: the interval of each region is its start and stop, and program memory is the range the fetch checks. -/
theorem regionsPartitionMemory : Obligations.RegionsPartitionMemory :=
  ⟨fun _ => fetchCell_isOk_iff.trans inProgram_iff, fun _ =>
    ⟨inBounds_iff_regionOf, regionOf_eq_some, inProgram_iff.symm, regionOf_eq_some, regionOf_eq_some, regionOf_eq_some⟩⟩

/-! ### Device cells -/

/-- Row by row, every video cell is the cell of a pixel (rule R49). -/
theorem exists_videoCell_eq (hlow : 2050 ≤ a) (hhigh : a < 3074) :
    ∃ x y, 0 ≤ x ∧ x < 32 ∧ 0 ≤ y ∧ y < 32 ∧ videoCell x y = a := by
  refine ⟨(a - 2050) % 32, (a - 2050) / 32, ?_⟩
  simp only [videoCell, Config.videoStart, Config.videoWidth]
  omega

/-- No two pixels share a cell: columns stay below the row width of 32. -/
theorem videoCell_inj {x y x' y' : Int} (hx : 0 ≤ x ∧ x < 32) (hx' : 0 ≤ x' ∧ x' < 32)
    (h : videoCell x' y' = videoCell x y) : x' = x ∧ y' = y := by
  simp only [videoCell, Config.videoStart, Config.videoWidth] at h
  omega

theorem regionOf_videoCell {x y : Int} (hx : 0 ≤ x ∧ x < 32) (hy : 0 ≤ y ∧ y < 32) :
    regionOf (videoCell x y) = some .video := by
  rw [regionOf_eq_some]
  simp only [Region.start, Region.stop, videoCell, Config.videoStart, Config.videoEnd, Config.videoWidth]
  omega

/-- The place of a control among the three of its channel (rule R50). -/
def AudioControl.offset : AudioControl → Int
  | .waveType => 0
  | .frequency => 1
  | .volume => 2

theorem AudioControl.offset_range (k : AudioControl) : 0 ≤ k.offset ∧ k.offset < 3 := by
  cases k <;> decide

theorem AudioControl.offset_inj : ∀ {j k : AudioControl}, j.offset = k.offset → j = k
  | .waveType, .waveType, _ | .frequency, .frequency, _ | .volume, .volume, _ => rfl

theorem audioCell_eq (c : Int) (k : AudioControl) : audioCell c k = 3074 + 3 * c + k.offset := by
  cases k with
  | waveType => exact (Int.add_zero _).symm
  | frequency | volume => rfl

theorem audioCell_range {c : Int} (k : AudioControl) (hlow : 0 ≤ c) (hhigh : c < 3) :
    3074 ≤ audioCell c k ∧ audioCell c k ≤ 3082 := by
  have := k.offset_range
  rw [audioCell_eq]
  omega

/-- The quotient and the remainder by 3 give back the channel and the control. -/
theorem audioCell_inj {c d : Int} {j k : AudioControl} (h : audioCell c j = audioCell d k) : c = d ∧ j = k := by
  have hj := j.offset_range
  have hk := k.offset_range
  rw [audioCell_eq, audioCell_eq] at h
  exact ⟨by omega, AudioControl.offset_inj (by omega)⟩

/-- Settles O10: existence and uniqueness of the pixel, then the nine audio cells. -/
theorem deviceCellsAreDistinct : Obligations.DeviceCellsAreDistinct := by
  refine ⟨fun a hlow hhigh => ?_, fun x y hx hx' hy hy' => regionOf_videoCell ⟨hx, hx'⟩ ⟨hy, hy'⟩,
    fun _ k => audioCell_range k, fun _ _ _ _ => audioCell_inj⟩
  obtain ⟨x, y, hx, hx', hy, hy', rfl⟩ := exists_videoCell_eq hlow hhigh
  exact ⟨x, y, ⟨hx, hx', hy, hy', rfl⟩, fun _ _ h h' _ _ => videoCell_inj ⟨hx, hx'⟩ ⟨h, h'⟩⟩

end Sys2Proof.Machine
end

section
/-! Encoding and decoding (30_encoding.md section 1): the decoder accepts exactly the encodings, on cells, on cells laid out as
bits, and where they stand in memory. -/

namespace Sys2Proof.Machine

variable {i : Instr} {o : Opcode} {raws rest cells : List Int} {op : Int} {m : Memory} {a : Nat}

/-! ### The opcode map and the shape of an encoding -/

theorem ofCode?_eq_none (h : ∀ o : Opcode, o.code ≠ op) : Opcode.ofCode? op = none := by
  rcases ho : Opcode.ofCode? op with - | o
  · rfl
  · exact absurd (ofCode?_eq_some ho) (h o)

/-- The opcode map has an inverse, so no two mnemonics share an opcode (rule R63). -/
theorem code_injective {o p : Opcode} (h : o.code = p.code) : o = p := by
  have hsome : some o = some p := by rw [← ofCode?_code o, ← ofCode?_code p, h]
  exact Option.some.inj hsome

theorem operands_length (i : Instr) : i.operands.length = i.opcode.arity := by cases i <;> rfl

theorem build_operands (i : Instr) : i.opcode.build i.operands = i := by cases i <;> rfl

@[simp] theorem encode_length (i : Instr) : (encode i).length = i.length := by
  simp only [encode, List.length_cons, operands_length, Instr.length, Opcode.length]
  omega

theorem instr_length_le (i : Instr) : i.length ≤ 4 := by
  have := arity_le i.opcode
  simp only [Instr.length, Opcode.length]
  omega

theorem encode_build (h : raws.length = o.arity) : encode (o.build raws) = o.code :: raws := by
  rw [encode, opcode_build, operands_build h]

theorem encode_inDomain (h : i.WellFormed) : ∀ v ∈ encode i, InDomain v :=
  List.forall_mem_cons.2 ⟨opcodeCode_inDomain i.opcode, h⟩

/-! ### Decode -/

theorem decode_unknown (h : ∀ o : Opcode, o.code ≠ op) (rest : List Int) :
    decode (op :: rest) = .error (.unknownOpcode op) := by
  simp only [decode, ofCode?_eq_none h]

/-- As many operand cells as the opcode has are taken, raw, and the cells after them given back (rule R64). -/
theorem decode_code_append (h : raws.length = o.arity) (rest : List Int) :
    decode (o.code :: raws ++ rest) = .ok (o.build raws, rest) := by
  have henough : ¬(raws ++ rest).length < raws.length := by
    rw [List.length_append]
    omega
  simp only [List.cons_append, decode, ofCode?_code, ← h, if_neg henough, List.take_left, List.drop_left]

theorem decode_encode_append (i : Instr) (rest : List Int) : decode (encode i ++ rest) = .ok (i, rest) := by
  rw [encode, decode_code_append (operands_length i), build_operands]

/-- Cells that decode split after the opcode and its operands. -/
theorem eq_encode_append_of_decode (h : decode cells = .ok (i, rest)) : cells = encode i ++ rest := by
  rcases cells with - | ⟨op, tail⟩
  · cases h
  simp only [decode] at h
  rcases ho : Opcode.ofCode? op with - | o <;> simp only [ho] at h
  · cases h
  split at h
  · cases h
  · rename_i henough
    cases h
    have htake : (tail.take o.arity).length = o.arity := List.length_take_of_le (Nat.not_lt.1 henough)
    rw [encode_build htake, ofCode?_eq_some ho, List.cons_append, List.take_append_drop]

/-- Settles O2: the inverse of the opcode map, then the operand cells as they stand. -/
theorem decodeFollowsOpcodeMap : Obligations.DecodeFollowsOpcodeMap :=
  ⟨fun o raws rest h => ⟨o.build raws, decode_code_append h rest, opcode_build o raws, operands_build h⟩,
    fun _ rest h => decode_unknown h rest, fun _ _ => code_injective⟩

/-- Settles O4. -/
theorem decodeReadsOnlyEncodings : Obligations.DecodeReadsOnlyEncodings := fun _ _ _ => eq_encode_append_of_decode

/-- Settles O1: each list is written as the opcode of its family, its operand cells and the cells after them. -/
theorem sampleWordsDecode : Obligations.SampleWordsDecode :=
  ⟨decode_encode_append (.copyToFrom 5 7) [], decode_encode_append (.copyToFromAddress 2 0) [77],
    decode_encode_append (.addConstant 0 (-5) 1) [], decode_encode_append (.divide 0 1 2) [],
    decode_encode_append (.compare 0 1 2) [], decode_encode_append (.jumpTo 1003) [],
    decode_encode_append (.branchIfNotEqualConstant 0 (-1) 1020) [], decode_encode_append .breakRun [],
    decode_unknown (fun o => by cases o <;> decide) [9999]⟩

/-! ### Cells as bits -/

theorem bitsOfCell_lt (v : Int) : bitsOfCell v < 2 ^ 64 := by
  unfold bitsOfCell
  omega

/-- The domain lies well inside the range of 64-bit two's complement (rule R6), so a cell comes back from its bits. -/
theorem cellOfBits_bitsOfCell {v : Int} (h : InDomain v) : cellOfBits (bitsOfCell v) = v := by
  simp only [InDomain, valueMin, valueMax] at h
  unfold cellOfBits bitsOfCell
  split <;> omega

theorem wordOfCells_lt (vs : List Int) : wordOfCells vs < 2 ^ (64 * vs.length) := by
  induction vs with
  | nil => decide
  | cons v vs ih =>
    have hv := bitsOfCell_lt v
    rw [wordOfCells, List.length_cons, Nat.mul_succ, Nat.add_comm (64 * _), Nat.pow_add]
    generalize 2 ^ (64 * vs.length) = bound at ih ⊢
    omega

/-- The `k`-th group of 64 bits is the `k`-th cell, and above the last cell it is 0. -/
theorem cellOfBits_wordOfCells {vs : List Int} (h : ∀ v ∈ vs, InDomain v) (k : Nat) :
    cellOfBits (wordOfCells vs / 2 ^ (64 * k) % 2 ^ 64) = vs.getD k 0 := by
  induction vs generalizing k with
  | nil => simp [wordOfCells, cellOfBits]
  | cons v vs ih =>
    obtain ⟨hv, hvs⟩ := List.forall_mem_cons.1 h
    have hlt := bitsOfCell_lt v
    cases k with
    | zero =>
      have hlow : wordOfCells (v :: vs) / 2 ^ (64 * 0) % 2 ^ 64 = bitsOfCell v := by
        rw [wordOfCells]
        omega
      rw [hlow, cellOfBits_bitsOfCell hv, List.getD_cons_zero]
    | succ k =>
      have hhigh : wordOfCells (v :: vs) / 2 ^ 64 = wordOfCells vs := by
        rw [wordOfCells]
        omega
      rw [Nat.mul_succ, Nat.add_comm, Nat.pow_add, ← Nat.div_div_eq_div_mul, hhigh, ih hvs, List.getD_cons_succ]

/-- A list of at most four cells, read cell by cell with 0 past its end. -/
theorem getD_four {vs : List Int} (h : vs.length ≤ 4) :
    [vs.getD 0 0, vs.getD 1 0, vs.getD 2 0, vs.getD 3 0] = vs ++ List.replicate (4 - vs.length) 0 := by
  match vs, h with
  | [], _ | [_], _ | [_, _], _ | [_, _, _], _ | [_, _, _, _], _ => rfl

theorem cellsOfWord_wordOfCells {vs : List Int} (h : ∀ v ∈ vs, InDomain v) (hlen : vs.length ≤ 4) :
    cellsOfWord (wordOfCells vs) = vs ++ List.replicate (4 - vs.length) 0 := by
  have hcell := cellOfBits_wordOfCells h
  have h0 : cellOfBits (wordOfCells vs % 2 ^ 64) = vs.getD 0 0 := by simpa using hcell 0
  rw [← getD_four hlen, ← h0, ← hcell 1, ← hcell 2, ← hcell 3]
  rfl

/-- The word of an instruction gives back its cells, with zeros up to the fourth. -/
theorem cellsOfWord_encode (h : i.WellFormed) :
    cellsOfWord (wordOfCells (encode i) % 2 ^ (64 * i.length)) = encode i ++ List.replicate (4 - i.length) 0 := by
  have hlt : wordOfCells (encode i) < 2 ^ (64 * i.length) := encode_length i ▸ wordOfCells_lt (encode i)
  have hlen : (encode i).length ≤ 4 := encode_length i ▸ instr_length_le i
  rw [Nat.mod_eq_of_lt hlt, cellsOfWord_wordOfCells (encode_inDomain h) hlen, encode_length]

/-- Settles O3: the round trip on cells, to which the layout as bits adds zeros behind the instruction. -/
theorem decodeOfEncodeIsIdentity : Obligations.DecodeOfEncodeIsIdentity := by
  refine fun i hwf => ⟨decode_encode_append i, ?_⟩
  simp only [decodeTableWord, cellsOfWord_encode hwf, decode_encode_append, if_pos hwf]

/-! ### Encodings in memory -/

theorem Memory.getElem_readList (m : Memory) (a n : Nat) {k : Nat} (hk : k < (Memory.readList m a n).length) :
    (Memory.readList m a n)[k] = Memory.read m (a + k) := by
  induction n generalizing a k with
  | zero => simp [Memory.readList] at hk
  | succ n ih =>
    cases k with
    | zero => rfl
    | succ k => simp only [Memory.readList, List.getElem_cons_succ, ih, Nat.add_assoc, Nat.add_comm 1]

/-- Consecutive cells are a list if each of them holds its value. -/
theorem Memory.readList_eq {n : Nat} {vs : List Int} (hlen : vs.length = n)
    (h : ∀ (k : Nat) (hk : k < vs.length), Memory.read m (a + k) = vs[k]) : Memory.readList m a n = vs := by
  refine List.ext_getElem (by simp [hlen]) fun k _ hk => ?_
  rw [Memory.getElem_readList, h k hk]

/-- What stands in memory from `a` on is an instruction: its opcode in the first cell, its operands in the next. -/
theorem readList_eq_encode_iff : Memory.readList m a i.length = encode i ↔
    Memory.read m a = i.opcode.code ∧ Memory.readList m (a + 1) i.opcode.arity = i.operands := by
  rw [Instr.length, Opcode.length, Nat.add_comm, Memory.readList, encode, List.cons.injEq]

/-- Settles O5. -/
theorem disassemblyInvertsEncoding : Obligations.DisassemblyInvertsEncoding := by
  intro i m a h
  obtain ⟨hcode, hoperands⟩ := readList_eq_encode_iff.1 h
  simp only [disassemble, hcode, ofCode?_code, Option.map_some, hoperands]

end Sys2Proof.Machine
end

section
/-! The fetch of an instruction and the step that runs it (30_encoding.md section 3): what stands at `pc` decides, error by
error and for an instruction that fits. -/

namespace Sys2Proof.Machine

variable {s t : State} {i : Instr} {a : Int}

/-! ### Operands -/

/-- The indirect range holds one raw value per cell of memory (rule R71). -/
theorem inIndirectRange_iff {raw : Int} : InIndirectRange raw ↔ InBounds (-raw - 1) := by
  simp only [InIndirectRange, InBounds, Config.totalMemorySize]
  omega

theorem eq_indirectRaw_iff {raw n : Int} : raw = indirectRaw n ↔ n = -raw - 1 := by
  unfold indirectRaw
  omega

/-- Settles O7: the two branches of `EA`, of which the indirect one reads a cell of memory. -/
theorem effectiveAddressOfOperand : Obligations.EffectiveAddressOfOperand := by
  intro s raw
  refine ⟨fun hoff => if_neg (by simp [hoff]), fun hon hlow hhigh => ?_, fun _ hout => if_neg ?_⟩
  · have hbounds : InBounds (-raw - 1) := inIndirectRange_iff.1 ⟨hlow, hhigh⟩
    exact (if_pos ⟨hon, hlow, hhigh⟩).trans (memRead_ok hbounds)
  · exact fun ⟨_, hlow, hhigh⟩ => hout.elim (not_lt_of_ge hlow) (not_lt_of_ge hhigh)

/-- Settles O8: cell `-raw - 1` is the one that `raw` encodes. -/
theorem indirectEncodingNamesEveryCell : Obligations.IndirectEncodingNamesEveryCell := by
  refine ⟨fun n hlow hhigh => inIndirectRange_iff.2 ?_, fun raw hraw =>
    ⟨-raw - 1, inIndirectRange_iff.1 hraw, eq_indirectRaw_iff.2 rfl, fun _ => eq_indirectRaw_iff.1⟩⟩
  rw [← eq_indirectRaw_iff.1 rfl]
  exact ⟨hlow, hhigh⟩

/-! ### Fetch -/

/-- The refresh writes no program cell, so the fetch sees what stood there before it (rules R47 and R48). -/
theorem cell_refreshInput (h : InProgram a) : (refreshInput s).cell a = s.cell a := by
  refine read_refreshInput_other ?_
  simp only [InProgram, InputCell, Config.programStart, Config.programEnd, Config.inputStart, Config.keycodeDepth] at h ⊢
  omega

theorem readList_refreshInput {n : Nat} (h : ∀ k : Nat, k < n → InProgram (s.pc + k)) :
    Memory.readList (refreshInput s).mem s.pc.toNat n = Memory.readList s.mem s.pc.toNat n := by
  refine Memory.readList_eq (Memory.length_readList _ _ _) fun k hk => ?_
  have hkn : k < n := by simpa using hk
  have hpc : 1000 ≤ s.pc + ((0 : Nat) : Int) := (h 0 (Nat.zero_lt_of_lt hkn)).1
  have haddr : (s.pc + k).toNat = s.pc.toNat + k := by omega
  rw [Memory.getElem_readList, ← haddr]
  exact cell_refreshInput (h k hkn)

theorem fetchInstr_outside (h : ¬InProgram s.pc) :
    fetchInstr s = .error ({ cause := .programCounterOutOfRange, info := s.pc }, s) := by
  simp only [fetchInstr, fetchCell_error h]

theorem fetchInstr_unknown (h : InProgram s.pc) (hop : ∀ o : Opcode, o.code ≠ s.cell s.pc) :
    fetchInstr s = .error ({ cause := .unknownOpcode, info := s.cell s.pc }, s.withPc (s.pc + 1)) := by
  simp only [fetchInstr, fetchCell_ok h, ofCode?_eq_none hop]

/-- An instruction that runs past the end of program memory stops the fetch there. -/
theorem fetchInstr_pastEnd {o : Opcode} (h : InProgram s.pc) (hop : o.code = s.cell s.pc) (hend : 2000 < s.pc + o.length) :
    fetchInstr s = .error ({ cause := .programCounterOutOfRange, info := 2000 }, s.withPc 2000) := by
  obtain ⟨hlow, hhigh⟩ := h
  have hpast : Config.programEnd < s.pc + 1 + o.arity := by
    simp only [Opcode.length, Nat.cast_add, Nat.cast_one, Config.programEnd] at hend ⊢
    omega
  obtain ⟨e, p, hfetch, rfl, rfl⟩ :=
    fetchCells_error o.arity (s := s.withPc (s.pc + 1)) (hlow.trans (Int.le_add_one le_rfl)) hhigh hpast
  simp only [fetchInstr, fetchCell_ok ⟨hlow, hhigh⟩, ← hop, ofCode?_code, hfetch, State.withPc_withPc]

/-- An instruction that lies in program memory is fetched, and `pc` has passed its cells. -/
theorem fetchInstr_ok (h : ∀ k : Nat, k < i.length → InProgram (s.pc + k))
    (hcells : Memory.readList s.mem s.pc.toNat i.length = encode i) :
    fetchInstr s = .ok (i, s.withPc (s.pc + i.length)) := by
  obtain ⟨hcode, hoperands⟩ := readList_eq_encode_iff.1 hcells
  have hlen : i.length = 1 + i.opcode.arity := rfl
  have hpc : InProgram s.pc := by simpa using h 0 (by omega)
  have hrest : ∀ k : Nat, k < i.opcode.arity → InProgram ((s.withPc (s.pc + 1)).pc + k) := fun k hk => by
    have hk' := h (1 + k) (by omega)
    rwa [Nat.cast_add, Nat.cast_one, ← Int.add_assoc] at hk'
  have hnext : (s.pc + 1).toNat = s.pc.toNat + 1 := Int.toNat_add (le_trans (by decide) hpc.1) (by decide)
  simp only [fetchInstr, fetchCell_ok hpc, State.cell, hcode, ofCode?_code, fetchCells_ok _ hrest, State.withPc_mem,
    State.withPc_pc, State.withPc_withPc, hnext, hoperands, build_operands, hlen, Nat.cast_add, Nat.cast_one, Int.add_assoc]

/-! ### Step -/

/-- An error of the fetch is the fault of the step (rule R132), after the refresh and with `pc` where the fetch left it. -/
theorem stepFaults_of_fetchInstr {cause : RuntimeError} {info p : Int} (hadm : StepAdmitted s)
    (h : fetchInstr (refreshInput s) = .error ({ cause := cause, info := info }, (refreshInput s).withPc p)) :
    StepFaults s cause info p := by
  refine ⟨enterFault { cause := cause, info := info } s.pc ((refreshInput s).withPc p), ?_, rfl, rfl, rfl, rfl,
    fun _ => rfl, ⟨rfl, rfl, rfl, rfl⟩⟩
  rw [step_of_admitted hadm, cycle, h]

/-- Settles O16: the three errors of the fetch, each in the refreshed state. -/
theorem fetchAndDecodeFaults : Obligations.FetchAndDecodeFaults := by
  intro s hadm
  refine ⟨fun hout => ?_, fun hin hop => ?_, fun o hin hop hend => ?_⟩
  · exact stepFaults_of_fetchInstr hadm (fetchInstr_outside (s := refreshInput s) hout)
  · rw [← cell_refreshInput hin] at hop ⊢
    exact stepFaults_of_fetchInstr hadm (fetchInstr_unknown (s := refreshInput s) hin hop)
  · rw [← cell_refreshInput hin] at hop
    exact stepFaults_of_fetchInstr hadm (fetchInstr_pastEnd (s := refreshInput s) hin hop hend)

/-- A step runs the instruction whose encoding stands at `pc`. -/
theorem step_of_readList (hadm : StepAdmitted s) (h : ∀ k : Nat, k < i.length → InProgram (s.pc + k))
    (hcells : Memory.readList s.mem s.pc.toNat i.length = encode i) :
    step s = exec i ((refreshInput s).withPc (s.pc + i.length)) := by
  have hfresh := (readList_refreshInput h).trans hcells
  rw [step_of_admitted hadm, cycle, fetchInstr_ok (s := refreshInput s) h hfresh]
  rfl

/-- Settles O12: cells that decode with nothing left over are the encoding. -/
theorem stepRunsDecodedInstruction : Obligations.StepRunsDecodedInstruction := by
  intro s i hadm hin hdecode
  have hcells := eq_encode_append_of_decode hdecode
  rw [List.append_nil] at hcells
  exact step_of_readList hadm hin hcells

/-- The word of a well-formed instruction is stored at `pc` as its cells, with zeros up to the fourth. -/
theorem withFetchWord_encode (hwf : i.WellFormed) : s.withFetchWord (64 * i.length) (wordOfCells (encode i)) =
    s.withMem (Memory.writeList s.mem s.pc.toNat (encode i ++ List.replicate (4 - i.length) 0)) := by
  have hzeros : ∀ v ∈ List.replicate (4 - i.length) (0 : Int), InDomain v := fun v hv =>
    List.eq_of_mem_replicate hv ▸ by decide
  rw [State.withFetchWord, cellsOfWord_encode hwf, placeCells,
    if_pos (List.forall_mem_append.2 ⟨encode_inDomain hwf, hzeros⟩)]

/-- Cells just written are read back, whatever was written behind them. -/
theorem Memory.readList_writeList {m : Memory} (hm : Memory.wf m) (a : Nat) (vs ws : List Int) :
    Memory.readList (Memory.writeList m a (vs ++ ws)) a vs.length = vs := by
  refine Memory.readList_eq rfl fun k hk => ?_
  have hk' : k < (vs ++ ws).length := by
    rw [List.length_append]
    omega
  rw [Memory.read_writeList_same hm.1 a _ hk', List.getElem_append_left hk]

/-- Settles O55: the stored word reads back as the encoding, so the step runs it. -/
theorem storedWordIsRunNext : Obligations.StoredWordIsRunNext := by
  intro s i hadm hmem hwf hin
  rw [withFetchWord_encode hwf]
  refine step_of_readList hadm hin ?_
  rw [← encode_length i]
  exact Memory.readList_writeList hmem _ _ _

/-! ### Faults and frames -/

/-- Settles O24: only `Ending.stored` writes memory, at the address that `storeAddress` names. -/
theorem execWritesOnlyItsStoreAddress : Obligations.ExecWritesOnlyItsStoreAddress := by
  intro i s t h b hb
  cases ending_of_exec h with
  | stored a v hstore _ ha =>
    have hne : (b : Int) ≠ a := fun heq => hb (heq ▸ hstore)
    exact read_store_other ha.1 hne v
  | transferred | unchanged | paused | stopped | faulted => rfl

/-- Settles O23: the fault is that of the instruction, which stored nothing and whose length gives back the start, or that of
the fetch. -/
theorem faultingStepIsPrecise : Obligations.FaultingStepIsPrecise := by
  intro s t h hfault
  obtain ⟨hadm, hcycle⟩ := admitted_of_step h
  obtain ⟨hhalted, hnone⟩ := flags_of_admitted hadm
  rcases cycle_cases s with ⟨i, u, -, hu, hend, -⟩ | ⟨e, p, hu, hlow, hhigh, -⟩ <;> cases hu.symm.trans hcycle
  · cases hend with
    | faulted e =>
      have hstart : s.pc + i.length - i.length = s.pc := Int.add_sub_cancel _ _
      have hlen := instr_length_le i
      refine ⟨fun _ => rfl, ⟨e.cause, e.info, ?_⟩, rfl, hhalted, ?_, ?_⟩
      · rw [enterFault_fault, State.withPc_pc, hstart]
      all_goals rw [enterFault_pc, State.withPc_pc]; omega
    | stored | transferred | unchanged | paused | stopped => exact absurd hnone hfault
  · exact ⟨fun _ => rfl, ⟨e.cause, e.info, rfl⟩, rfl, hhalted, hlow, hhigh⟩

end Sys2Proof.Machine
end

section
/-! The image the assembler gives (30_encoding.md section 4): the appended `halt` ends it, so every label names a cell of it. -/

namespace Sys2Proof.Machine

variable {b : Bool} {labels defines : NameTable} {records : List AsmRecord} {image : List Int}

theorem parse_getLast? {text : List Char} (h : parse b text = .ok records) : records.getLast? = some trailingHalt := by
  obtain ⟨front, rfl⟩ := (parse_ok h).2
  exact List.getLast?_concat

/-- What is emitted of records that end in the appended `halt` ends in its opcode (rules R63 and R88). -/
theorem emit_getLast? (hlast : records.getLast? = some trailingHalt) (h : emit b labels defines records = .ok image) :
    image.getLast? = some 9999 := by
  obtain ⟨front, rfl⟩ := List.getLast?_eq_some_iff.1 hlast
  obtain ⟨head, tail, E, -, htail, rfl⟩ := emit_append h
  cases htail
  exact List.getLast?_concat

/-- Settles O53: the size check, the appended `halt`, and `assemble_inDomain`. -/
theorem assembledImageIsLoadable : Obligations.AssembledImageIsLoadable := by
  intro b text image h
  obtain ⟨records, labels, hparse, -, hemit, hlen⟩ := assemble_ok h
  exact ⟨hlen, emit_getLast? (parse_getLast? hparse) hemit, assemble_inDomain h⟩

/-- Layout gives a label the address it has reached (rule R89). -/
theorem lookupName_of_layout {base : Int} {table : NameTable} {before after : List AsmRecord} {n : Token} {line : Nat}
    (h : layout base table (before ++ { body := .label n, line := line } :: after) = .ok labels) :
    lookupName labels n = some (base + totalSize before) := by
  obtain ⟨M, -, hrest⟩ := layout_append h
  obtain ⟨-, hafter⟩ := layout_label hrest
  exact layout_keeps hafter (by simp [lookupName])

/-- Settles O54: layout counts the cells that emit gives for the records before the label, and the appended `halt` comes
after it. -/
theorem labelsNameTheNextEmittedCell : Obligations.LabelsNameTheNextEmittedCell := by
  intro b text records before after labels image n line hparse hlayout hemit hrecords
  have hlast := parse_getLast? hparse
  have hok := (parse_ok hparse).1
  subst hrecords
  obtain ⟨head, tail, E, hhead, htail, rfl⟩ := emit_append hemit
  have hlen : head.length = totalSize before := emit_length (fun r hr => hok r (List.mem_append_left _ hr)) hhead
  refine ⟨head, tail, rfl, hhead, hlen ▸ lookupName_of_layout hlayout, ?_⟩
  rintro rfl
  rw [List.getLast?_append_cons] at hlast
  cases emit_getLast? hlast htail

end Sys2Proof.Machine
end

section
/-! The copy family (40_copy.md): an instruction is its reads in their order and then one write, and each access that fails its
bounds check ends it in the fault state. -/

namespace Sys2Proof.Machine

variable {s : State} {o : Opcode} {a v : Int}

/-! ### One access of an instruction -/

theorem settle_memRead (ha : InBounds a) (f : Int → Except Raised State) :
    settle o s (memRead s a >>= f) = settle o s (f (s.cell a)) := by
  rw [memRead_ok ha]
  rfl

theorem endsInFault_memRead (ha : ¬InBounds a) (f : Int → Except Raised State) :
    EndsInFault o s .outOfBounds a (settle o s (memRead s a >>= f)) :=
  endsInFault_of_eq (by rw [memRead_error ha]; rfl)

theorem endsInFault_memWrite (ha : ¬InBounds a) (v : Int) :
    EndsInFault o s .outOfBounds a (settle o s (memWrite s a v)) :=
  endsInFault_of_eq (by rw [memWrite_outOfBounds ha]; rfl)

theorem endsInStore_memWrite (hm : Memory.wf s.mem) (ha : InBounds a) (hv : InDomain v) :
    EndsInStore s a v (settle o s (memWrite s a v)) :=
  endsInStore_of_eq hm.1 ha.1 (by rw [memWrite_ok ha hv]; rfl)

/-- A cell's content always passes the domain check of a write (rule R39). -/
theorem endsInStore_memWrite_cell (hm : Memory.wf s.mem) (ha : InBounds a) (p : Int) :
    EndsInStore s a (s.cell p) (settle o s (memWrite s a (s.cell p))) :=
  endsInStore_memWrite hm ha (cell_inDomain hm p)

/-! ### The instructions, their effective addresses resolved -/

variable {destination source value pointer label d p : Int}

theorem exec_copyToFrom (hd : effectiveAddress s destination = .ok d) (hp : effectiveAddress s source = .ok p) :
    exec (.copyToFrom destination source) s = settle .copyToFrom s (memRead s p >>= memWrite s d) := by
  simp only [exec, execCopyToFrom, hd, hp]
  rfl

theorem exec_copyToFromConstant (hd : effectiveAddress s destination = .ok d) :
    exec (.copyToFromConstant destination value) s = settle .copyToFromConstant s (memWrite s d value) := by
  simp only [exec, execCopyToFromConstant, hd]
  rfl

theorem exec_copyToFromAddress (hd : effectiveAddress s destination = .ok d) :
    exec (.copyToFromAddress destination pointer) s =
      settle .copyToFromAddress s (memRead s pointer >>= fun t => memRead s t >>= memWrite s d) := by
  simp only [exec, execCopyToFromAddress, hd]
  rfl

theorem exec_copyIntoAddress (hp : effectiveAddress s source = .ok p) :
    exec (.copyIntoAddress pointer source) s =
      settle .copyIntoAddress s (memRead s pointer >>= fun t => memRead s p >>= memWrite s t) := by
  simp only [exec, execCopyIntoAddress, hp]
  rfl

theorem exec_copyAddressOfLabel (hd : effectiveAddress s destination = .ok d) :
    exec (.copyAddressOfLabel destination label) s = settle .copyAddressOfLabel s (memWrite s d label) := by
  simp only [exec, execCopyAddressOfLabel, hd]
  rfl

/-! ### The rules -/

/-- Settles O27: the source is read, then the destination written. -/
theorem copyToFromRule : Obligations.CopyToFromRule := by
  intro s destination source d p hm hd hp
  rw [exec_copyToFrom hd hp]
  refine ⟨rfl, fun hsource => endsInFault_memRead hsource _, fun hsource hdest => ?_, fun hsource hdest => ?_⟩
  all_goals rw [settle_memRead hsource]
  · exact endsInFault_memWrite hdest _
  · exact endsInStore_memWrite_cell hm hdest p

/-- Settles O28: the one access is the write. -/
theorem copyToFromConstantRule : Obligations.CopyToFromConstantRule := by
  intro s destination value d hm hvalue hd
  rw [exec_copyToFromConstant hd]
  exact ⟨rfl, fun hdest => endsInFault_memWrite hdest _, fun hdest => endsInStore_memWrite hm hdest hvalue⟩

/-- Settles O29: the pointer cell is read, then the cell it names, then the destination written. -/
theorem copyThroughPointerSourceRule : Obligations.CopyThroughPointerSourceRule := by
  intro s destination sourcePointer d hm hd
  rw [exec_copyToFromAddress hd]
  refine ⟨rfl, fun hptr => endsInFault_memRead hptr _, fun hptr hsource => ?_, fun hptr hsource hdest => ?_,
    fun hptr hsource hdest => ?_⟩
  all_goals rw [settle_memRead hptr]
  · exact endsInFault_memRead hsource _
  all_goals rw [settle_memRead hsource]
  · exact endsInFault_memWrite hdest _
  · exact endsInStore_memWrite_cell hm hdest _

/-- Settles O30: the pointer cell is read, then the source, then the cell the pointer names written. -/
theorem copyThroughPointerDestinationRule : Obligations.CopyThroughPointerDestinationRule := by
  intro s destinationPointer source p hm hp
  rw [exec_copyIntoAddress hp]
  refine ⟨rfl, fun hptr => endsInFault_memRead hptr _, fun hptr hsource => ?_, fun hptr hsource htarget => ?_,
    fun hptr hsource htarget => ?_⟩
  all_goals rw [settle_memRead hptr]
  · exact endsInFault_memRead hsource _
  all_goals rw [settle_memRead hsource]
  · exact endsInFault_memWrite htarget _
  · exact endsInStore_memWrite_cell hm htarget p

/-- Settles O31: the one access is the write. -/
theorem copyAddressOfLabelRule : Obligations.CopyAddressOfLabelRule := by
  intro s destination label d hm hlabel hd
  rw [exec_copyAddressOfLabel hd]
  exact ⟨rfl, fun hdest => endsInFault_memWrite hdest _, fun hdest => endsInStore_memWrite hm hdest hlabel⟩

end Sys2Proof.Machine
end

section
/-! The arithmetic family (41_arithmetic.md): the size of a quotient and of a remainder (rule R105), and one argument for the
rules of each shape, over phase E3 of the instruction. -/

namespace Sys2Proof.Machine

variable {s : State} {o : Opcode}

/-! ### Quotient and remainder (rule R105) -/

theorem truncRem_eq_tmod (a b : Int) : truncRem a b = Int.tmod a b := (Int.tmod_def a b).symm

theorem mul_truncDiv_add_truncRem (a b : Int) : b * truncDiv a b + truncRem a b = a :=
  add_sub_cancel _ _

theorem natAbs_truncDiv (a b : Int) : (truncDiv a b).natAbs = a.natAbs / b.natAbs := Int.natAbs_tdiv a b

theorem natAbs_truncRem (a b : Int) : (truncRem a b).natAbs = a.natAbs % b.natAbs := by
  rw [truncRem_eq_tmod, Int.natAbs_tmod]

theorem truncRem_nonneg {a : Int} (b : Int) (ha : 0 ≤ a) : 0 ≤ truncRem a b := by
  rw [truncRem_eq_tmod]
  exact Int.tmod_nonneg b ha

/-- The remainder of the opposite dividend is the opposite remainder. -/
theorem truncRem_nonpos {a : Int} (b : Int) (ha : a ≤ 0) : truncRem a b ≤ 0 := by
  have hneg := truncRem_nonneg b (Int.neg_nonneg_of_nonpos ha)
  rw [truncRem_eq_tmod, Int.neg_tmod, ← truncRem_eq_tmod] at hneg
  exact Int.nonpos_of_neg_nonneg hneg

/-- The domain is symmetric about 0 (rule R6), so the size of a value decides whether it lies in it. -/
theorem inDomain_of_natAbs_le {v w : Int} (hv : InDomain v) (h : w.natAbs ≤ v.natAbs) : InDomain w := by
  simp only [InDomain, valueMin, valueMax] at hv ⊢
  omega

theorem truncDiv_inDomain {a : Int} (ha : InDomain a) (b : Int) : InDomain (truncDiv a b) :=
  inDomain_of_natAbs_le ha (natAbs_truncDiv a b ▸ Nat.div_le_self _ _)

theorem truncRem_inDomain {a : Int} (ha : InDomain a) (b : Int) : InDomain (truncRem a b) :=
  inDomain_of_natAbs_le ha (natAbs_truncRem a b ▸ Nat.mod_le _ _)

/-- Settles O37: the sizes of quotient and remainder are the quotient and the remainder of the sizes. -/
theorem divisionTruncatesTowardZero : Obligations.DivisionTruncatesTowardZero := by
  intro a b hb
  have hsize : (truncRem a b).natAbs < b.natAbs := natAbs_truncRem a b ▸ Nat.mod_lt _ (Int.natAbs_pos.2 hb)
  exact ⟨(mul_truncDiv_add_truncRem a b).symm, hsize, truncRem_nonneg b, truncRem_nonpos b, natAbs_truncDiv a b,
    fun ha => ⟨truncDiv_inDomain ha b, truncRem_inDomain ha b⟩⟩

/-! ### The instructions, their effective addresses resolved -/

theorem computeAddresses_eq {alu : Int → Int → Except Raised Int} {a b r pa pb pr : Int}
    (ha : effectiveAddress s a = .ok pa) (hb : effectiveAddress s b = .ok pb) (hr : effectiveAddress s r = .ok pr) :
    computeAddresses alu a b r s =
      memRead s pa >>= fun x => memRead s pb >>= fun y => alu x y >>= memWrite s pr := by
  simp only [computeAddresses, ha, hb, hr]
  rfl

theorem computeConstant_eq {alu : Int → Int → Except Raised Int} {a b r pa pr : Int}
    (ha : effectiveAddress s a = .ok pa) (hr : effectiveAddress s r = .ok pr) :
    computeConstant alu a b r s = memRead s pa >>= fun x => alu x b >>= memWrite s pr := by
  simp only [computeConstant, ha, hr]
  rfl

/-! ### What phase E3 passes on -/

theorem settle_value (v : Int) (f : Int → Except Raised State) : settle o s (.ok v >>= f) = settle o s (f v) := rfl

theorem endsInFault_raise (cause : RuntimeError) (info : Int) (f : Int → Except Raised State) :
    EndsInFault o s cause info (settle o s (.error { cause := cause, info := info } >>= f)) :=
  endsInFault_of_eq rfl

theorem endsInFault_memWrite_value {a v : Int} (ha : InBounds a) (hv : ¬InDomain v) :
    EndsInFault o s .invalidValue v (settle o s (memWrite s a v)) :=
  endsInFault_of_eq (by rw [memWrite_invalidValue ha hv]; rfl)

/-! ### The shapes of the rules

An instruction has the shape when its encoding is the one the rule prints, when it runs phases E1 to E4 with an operation
`alu` of its own, and when `alu` is what the rule says of phase E3. -/

variable {code : Int} {mk : Int → Int → Int → Instr} {alu : Int → Int → Except Raised Int}
  {f : Int → Int → Int} {zero : RuntimeError}

/-- Phase E3 always gives a value, and the write checks the destination and then the value. -/
theorem overflowRule_of_alu (hencode : ∀ a b r, encode (mk a b r) = [code, a, b, r])
    (hexec : ∀ a b r s, exec (mk a b r) s = settle o s (computeAddresses alu a b r s))
    (halu : ∀ x y, alu x y = .ok (f x y)) : OverflowRule o code mk f := by
  intro s a b r pa pb pr hm ha hb hr
  rw [hexec, computeAddresses_eq ha hb hr]
  refine ⟨hencode a b r, fun hpa => endsInFault_memRead hpa _, fun hpa hpb => ?_, fun hpa hpb hpr => ?_,
    fun hpa hpb hpr hv => ?_, fun hpa hpb hpr hv => ?_⟩
  all_goals rw [settle_memRead hpa]
  · exact endsInFault_memRead hpb _
  all_goals rw [settle_memRead hpb, halu, settle_value]
  · exact endsInFault_memWrite hpr _
  · exact endsInFault_memWrite_value hpr hv
  · exact endsInStore_memWrite hm hpr hv

theorem overflowConstantRule_of_alu (hencode : ∀ a b r, encode (mk a b r) = [code, a, b, r])
    (hexec : ∀ a b r s, exec (mk a b r) s = settle o s (computeConstant alu a b r s))
    (halu : ∀ x y, alu x y = .ok (f x y)) : OverflowConstantRule o code mk f := by
  intro s a b r pa pr hm ha hr
  rw [hexec, computeConstant_eq ha hr]
  refine ⟨hencode a b r, fun hpa => endsInFault_memRead hpa _, fun hpa hpr => ?_, fun hpa hpr hv => ?_,
    fun hpa hpr hv => ?_⟩
  all_goals rw [settle_memRead hpa, halu, settle_value]
  · exact endsInFault_memWrite hpr _
  · exact endsInFault_memWrite_value hpr hv
  · exact endsInStore_memWrite hm hpr hv

/-- A zero divisor ends phase E3, before the write of phase E4 checks the destination; the value of any other divisor
needs no check, for it lies in the domain with the dividend. -/
theorem divisorRule_of_alu (hencode : ∀ a b r, encode (mk a b r) = [code, a, b, r])
    (hexec : ∀ a b r s, exec (mk a b r) s = settle o s (computeAddresses alu a b r s))
    (halu : ∀ x y, alu x y = if y = 0 then .error { cause := zero, info := x } else .ok (f x y))
    (hdomain : ∀ {x}, InDomain x → ∀ y, InDomain (f x y)) : DivisorRule o code mk zero f := by
  intro s a b r pa pb pr hm ha hb hr
  rw [hexec, computeAddresses_eq ha hb hr]
  refine ⟨hencode a b r, fun hpa => endsInFault_memRead hpa _, fun hpa hpb => ?_, fun hpa hpb hzero => ?_,
    fun hpa hpb hzero hpr => ?_, fun hpa hpb hzero hpr => ?_⟩
  all_goals rw [settle_memRead hpa]
  · exact endsInFault_memRead hpb _
  all_goals rw [settle_memRead hpb, halu]
  · rw [if_pos hzero]
    exact endsInFault_raise zero _ _
  all_goals rw [if_neg hzero, settle_value]
  · exact endsInFault_memWrite hpr _
  · exact endsInStore_memWrite hm hpr (hdomain (cell_inDomain hm pa) _)

theorem divisorConstantRule_of_alu (hencode : ∀ a b r, encode (mk a b r) = [code, a, b, r])
    (hexec : ∀ a b r s, exec (mk a b r) s = settle o s (computeConstant alu a b r s))
    (halu : ∀ x y, alu x y = if y = 0 then .error { cause := zero, info := x } else .ok (f x y))
    (hdomain : ∀ {x}, InDomain x → ∀ y, InDomain (f x y)) : DivisorConstantRule o code mk zero f := by
  intro s a b r pa pr hm ha hr
  rw [hexec, computeConstant_eq ha hr]
  refine ⟨hencode a b r, fun hpa => endsInFault_memRead hpa _, fun hpa hzero => ?_, fun hpa hzero hpr => ?_,
    fun hpa hzero hpr => ?_⟩
  all_goals rw [settle_memRead hpa, halu]
  · rw [if_pos hzero]
    exact endsInFault_raise zero _ _
  all_goals rw [if_neg hzero, settle_value]
  · exact endsInFault_memWrite hpr _
  · exact endsInStore_memWrite hm hpr (hdomain (cell_inDomain hm pa) _)

/-! ### The rules -/

/-- Settles O32: phase E3 is `aluAdd`. -/
theorem addRules : Obligations.AddRules :=
  ⟨overflowRule_of_alu (alu := aluAdd) (fun _ _ _ => rfl) (fun _ _ _ _ => rfl) fun _ _ => rfl,
    overflowConstantRule_of_alu (alu := aluAdd) (fun _ _ _ => rfl) (fun _ _ _ _ => rfl) fun _ _ => rfl⟩

/-- Settles O33: phase E3 is `aluSubtract`. -/
theorem subtractRules : Obligations.SubtractRules :=
  ⟨overflowRule_of_alu (alu := aluSubtract) (fun _ _ _ => rfl) (fun _ _ _ _ => rfl) fun _ _ => rfl,
    overflowConstantRule_of_alu (alu := aluSubtract) (fun _ _ _ => rfl) (fun _ _ _ _ => rfl) fun _ _ => rfl⟩

/-- Settles O34: phase E3 is `aluMultiply`. -/
theorem multiplyRules : Obligations.MultiplyRules :=
  ⟨overflowRule_of_alu (alu := aluMultiply) (fun _ _ _ => rfl) (fun _ _ _ _ => rfl) fun _ _ => rfl,
    overflowConstantRule_of_alu (alu := aluMultiply) (fun _ _ _ => rfl) (fun _ _ _ _ => rfl) fun _ _ => rfl⟩

/-- Settles O35: phase E3 is `aluDivide`, whose quotient is no larger than the dividend. -/
theorem divideRules : Obligations.DivideRules :=
  ⟨divisorRule_of_alu (alu := aluDivide) (fun _ _ _ => rfl) (fun _ _ _ _ => rfl) (fun _ _ => rfl) truncDiv_inDomain,
    divisorConstantRule_of_alu (alu := aluDivide) (fun _ _ _ => rfl) (fun _ _ _ _ => rfl) (fun _ _ => rfl)
      truncDiv_inDomain⟩

/-- Settles O36: phase E3 is `aluModulo`, whose remainder is no larger than the dividend. -/
theorem moduloRules : Obligations.ModuloRules :=
  ⟨divisorRule_of_alu (alu := aluModulo) (fun _ _ _ => rfl) (fun _ _ _ _ => rfl) (fun _ _ => rfl) truncRem_inDomain,
    divisorConstantRule_of_alu (alu := aluModulo) (fun _ _ _ => rfl) (fun _ _ _ _ => rfl) (fun _ _ => rfl)
      truncRem_inDomain⟩

end Sys2Proof.Machine
end

section
/-! The compare family (42_compare.md): the three-way compare law (rule R117) and its rules. A compare is an instruction of
the overflow shape whose value never leaves the domain. -/

namespace Sys2Proof.Machine

/-! ### The three-way compare law (rule R117) -/

variable {x y : Int}

theorem threeWay_of_lt (h : x < y) : threeWay x y = -1 := if_pos h

theorem threeWay_of_eq (h : x = y) : threeWay x y = 0 := by
  rw [threeWay, if_neg h.not_lt, if_pos h]

theorem threeWay_of_gt (h : x > y) : threeWay x y = 1 := by
  rw [threeWay, if_neg h.not_gt, if_neg h.ne']

/-- The written value is always in the domain, so a compare can raise only `outOfBounds`. -/
theorem threeWay_inDomain (x y : Int) : InDomain (threeWay x y) := by
  rcases lt_trichotomy x y with hlt | heq | hgt
  · rw [threeWay_of_lt hlt]
    decide
  · rw [threeWay_of_eq heq]
    decide
  · rw [threeWay_of_gt hgt]
    decide

/-! ### The shapes of the rules -/

variable {o : Opcode} {code : Int} {mk : Int → Int → Int → Instr}

theorem OverflowRule.compareRule (h : OverflowRule o code mk threeWay) : CompareRule o code mk := by
  intro s a b r pa pb pr hm ha hb hr
  obtain ⟨hencode, hfirst, hsecond, hresult, -, hstore⟩ := h s a b r pa pb pr hm ha hb hr
  refine ⟨hencode, hfirst, hsecond, hresult, fun hpa hpb hpr hlt => ?_, fun hpa hpb hpr heq => ?_,
    fun hpa hpb hpr hgt => ?_⟩
  · exact threeWay_of_lt hlt ▸ hstore hpa hpb hpr (threeWay_inDomain _ _)
  · exact threeWay_of_eq heq ▸ hstore hpa hpb hpr (threeWay_inDomain _ _)
  · exact threeWay_of_gt hgt ▸ hstore hpa hpb hpr (threeWay_inDomain _ _)

theorem OverflowConstantRule.compareConstantRule (h : OverflowConstantRule o code mk threeWay) :
    CompareConstantRule o code mk := by
  intro s a b r pa pr hm ha hr
  obtain ⟨hencode, hfirst, hresult, -, hstore⟩ := h s a b r pa pr hm ha hr
  refine ⟨hencode, hfirst, hresult, fun hpa hpr hlt => ?_, fun hpa hpr heq => ?_, fun hpa hpr hgt => ?_⟩
  · exact threeWay_of_lt hlt ▸ hstore hpa hpr (threeWay_inDomain _ _)
  · exact threeWay_of_eq heq ▸ hstore hpa hpr (threeWay_inDomain _ _)
  · exact threeWay_of_gt hgt ▸ hstore hpa hpr (threeWay_inDomain _ _)

/-! ### The rules -/

/-- Settles O38: phase E3 is `aluCompare`, whose three values lie in the domain. -/
theorem compareRules : Obligations.CompareRules :=
  ⟨(overflowRule_of_alu (alu := aluCompare) (fun _ _ _ => rfl) (fun _ _ _ _ => rfl) fun _ _ => rfl).compareRule,
    (overflowConstantRule_of_alu (alu := aluCompare) (fun _ _ _ => rfl) (fun _ _ _ _ => rfl)
      fun _ _ => rfl).compareConstantRule⟩

end Sys2Proof.Machine
end

section
/-! The control-transfer family (43_control.md): a transfer answers the next state with `pc` at its target, unchecked, and a
branch decides on its test, once its reads have passed, whether to make one. -/

namespace Sys2Proof.Machine

variable {s : State} {o : Opcode} {a b l pa pb : Int}

/-! ### The end of a transfer (rule R120) -/

theorem endsAt_withPc (s : State) (target : Int) : EndsAt s target (.next (s.withPc target)) :=
  ⟨s.withPc target, rfl, rfl, fun _ => rfl, ⟨rfl, rfl, rfl⟩, ⟨rfl, rfl, rfl, rfl⟩⟩

/-- Settles O39: the target is not checked, so there is one ending. -/
theorem jumpToRule : Obligations.JumpToRule := fun s label => ⟨rfl, endsAt_withPc s label⟩

theorem endsAt_branchTo_taken {taken : Bool} (h : taken = true) :
    EndsAt s l (settle o s (.ok (branchTo taken l s))) := by
  rw [branchTo, if_pos h]
  exact endsAt_withPc s l

/-- A branch not taken ends as a transfer to where `pc` already is. -/
theorem endsAt_branchTo_untaken {taken : Bool} (h : ¬taken = true) :
    EndsAt s s.pc (settle o s (.ok (branchTo taken l s))) := by
  rw [branchTo, if_neg h]
  exact endsAt_withPc s s.pc

/-! ### The branches, their effective addresses resolved -/

variable {test : Int → Int → Bool}

theorem branchAddresses_eq (ha : effectiveAddress s a = .ok pa) (hb : effectiveAddress s b = .ok pb) :
    branchAddresses test a b l s =
      memRead s pa >>= fun x => memRead s pb >>= fun y => .ok (branchTo (test x y) l s) := by
  simp only [branchAddresses, ha, hb]
  rfl

theorem branchConstant_eq (ha : effectiveAddress s a = .ok pa) :
    branchConstant test a b l s = memRead s pa >>= fun x => .ok (branchTo (test x b) l s) := by
  simp only [branchConstant, ha]
  rfl

/-! ### The shapes of the rules

An instruction has the shape when its encoding is the one the rule prints, when it runs phases E1 to E4 with a test of its
own, and when the test decides what the rule says of the two values. -/

variable {code : Int} {mk : Int → Int → Int → Instr} {taken : Int → Int → Prop}

theorem branchRule_of_test (hencode : ∀ a b l, encode (mk a b l) = [code, a, b, l])
    (hexec : ∀ a b l s, exec (mk a b l) s = settle o s (branchAddresses test a b l s))
    (htest : ∀ x y, test x y = true ↔ taken x y) : BranchRule o code mk taken := by
  intro s a b l pa pb ha hb
  rw [hexec, branchAddresses_eq ha hb]
  refine ⟨hencode a b l, fun hpa => endsInFault_memRead hpa _, fun hpa hpb => ?_, fun hpa hpb htaken => ?_,
    fun hpa hpb hnot => ?_⟩
  all_goals rw [settle_memRead hpa]
  · exact endsInFault_memRead hpb _
  all_goals rw [settle_memRead hpb]
  · exact endsAt_branchTo_taken ((htest _ _).2 htaken)
  · exact endsAt_branchTo_untaken (mt (htest _ _).1 hnot)

theorem branchConstantRule_of_test (hencode : ∀ a b l, encode (mk a b l) = [code, a, b, l])
    (hexec : ∀ a b l s, exec (mk a b l) s = settle o s (branchConstant test a b l s))
    (htest : ∀ x y, test x y = true ↔ taken x y) : BranchConstantRule o code mk taken := by
  intro s a b l pa ha
  rw [hexec, branchConstant_eq ha]
  refine ⟨hencode a b l, fun hpa => endsInFault_memRead hpa _, fun hpa htaken => ?_, fun hpa hnot => ?_⟩
  all_goals rw [settle_memRead hpa]
  · exact endsAt_branchTo_taken ((htest _ _).2 htaken)
  · exact endsAt_branchTo_untaken (mt (htest _ _).1 hnot)

/-! ### The rules -/

theorem testEqual_iff (x y : Int) : testEqual x y = true ↔ x = y := beq_iff_eq

theorem testNotEqual_iff (x y : Int) : testNotEqual x y = true ↔ x ≠ y := bne_iff_ne

/-- Settles O40: the test is `testEqual`. -/
theorem branchIfEqualRules : Obligations.BranchIfEqualRules :=
  ⟨branchRule_of_test (fun _ _ _ => rfl) (fun _ _ _ _ => rfl) testEqual_iff,
    branchConstantRule_of_test (fun _ _ _ => rfl) (fun _ _ _ _ => rfl) testEqual_iff⟩

/-- Settles O41: the test is `testNotEqual`. -/
theorem branchIfNotEqualRules : Obligations.BranchIfNotEqualRules :=
  ⟨branchRule_of_test (fun _ _ _ => rfl) (fun _ _ _ _ => rfl) testNotEqual_iff,
    branchConstantRule_of_test (fun _ _ _ => rfl) (fun _ _ _ _ => rfl) testNotEqual_iff⟩

end Sys2Proof.Machine
end

section
/-! The system family (44_system.md): each instruction is one cell, reads nothing and raises nothing (rule R126), so a step is
the refresh, the advance of `pc` by one and a write of the control flags at most. -/

namespace Sys2Proof.Machine

variable {s : State} {i : Instr}

/-! ### Effect and step -/

theorem exec_data (s : State) : exec .data s = .next s := rfl

theorem exec_breakRun (s : State) : exec .breakRun s = .next (pauseFlags s) := rfl

theorem exec_halt (s : State) : exec .halt s = .next (haltFlags s) := rfl

/-- An instruction without operands is fetched once its one cell lies in program memory. -/
theorem step_of_one_cell (harity : i.opcode.arity = 0) (hadm : StepAdmitted s) (hin : InProgram s.pc)
    (hcell : s.cell s.pc = i.opcode.code) : step s = exec i ((refreshInput s).withPc (s.pc + 1)) := by
  have hlen : i.length = 1 := by rw [Instr.length, Opcode.length, harity]
  have hnone : i.operands = [] := List.eq_nil_of_length_eq_zero ((operands_length i).trans harity)
  have hinside : ∀ k : Nat, k < i.length → InProgram (s.pc + k) := fun k hk => by
    obtain rfl : k = 0 := by omega
    simpa using hin
  have hcells : Memory.readList s.mem s.pc.toNat i.length = encode i :=
    readList_eq_encode_iff.2 ⟨hcell, by rw [harity, hnone, Memory.readList]⟩
  rw [step_of_readList hadm hinside hcells, hlen, Nat.cast_one]

/-! ### The control state the flag writes leave (rules R128 and R129) -/

theorem not_stopped_of_paused_or_running (h : controlState s = some .paused ∨ controlState s = some .running) :
    s.halted = false ∧ s.fault = none :=
  h.elim (fun hpaused => (controlState_eq_paused.1 hpaused).2) fun hrunning => (controlState_eq_running.1 hrunning).2

theorem pauseFlags_controlState (h : controlState s = some .paused ∨ controlState s = some .running) :
    controlState (pauseFlags s) = some .paused :=
  controlState_eq_paused.2 ⟨rfl, not_stopped_of_paused_or_running (s := s) h⟩

theorem haltFlags_controlState (h : controlState s = some .paused ∨ controlState s = some .running) :
    controlState (haltFlags s) = some .halted :=
  controlState_eq_halted.2 ⟨rfl, rfl, (not_stopped_of_paused_or_running h).2⟩

theorem runCommand_of_halted (h : controlState s = some .halted) : runCommand s = s :=
  runCommand_of_not_paused (by rw [h]; decide)

/-! ### Data in the assembler -/

theorem emitValues_literals (defines : NameTable) (line : Nat) (values : List Int) :
    emitValues defines line (values.map .literal) = .ok values := by
  induction values with
  | nil => rfl
  | cons v vs ih =>
    rw [List.map_cons, emitValues, ih]
    rfl

/-- A `data` record puts its values, with no opcode before them, in front of what the later records emit (rule R91). -/
theorem emit_data_literals (b : Bool) (labels defines : NameTable) (values : List Int) (line : Nat)
    (records : List AsmRecord) :
    emit b labels defines ({ body := .data (values.map .literal), line := line } :: records) =
      (values ++ ·) <$> emit b labels defines records := by
  simp only [emit, emitValues_literals]
  rfl

/-! ### The rules -/

/-- Settles O42. -/
theorem dataIsNoOp : Obligations.DataIsNoOp := by
  refine ⟨rfl, exec_data, fun _ => step_of_one_cell (i := .data) rfl, fun b labels defines values line => ?_⟩
  rw [emit_data_literals]
  exact congrArg Except.ok (List.append_nil values)

/-- Settles O43: the state is `pauseFlags s`, which is `paused`, so a run resumes it; with `running` clear the loop is over. -/
theorem breakPauses : Obligations.BreakPauses := by
  refine ⟨rfl, fun s => ⟨pauseFlags s, exec_breakRun s, rfl, rfl, rfl, rfl, fun _ => rfl, ⟨rfl, rfl, rfl, rfl⟩,
    fun hstate => ?_, step_of_one_cell (i := .breakRun) rfl⟩⟩
  have hpaused := pauseFlags_controlState hstate
  exact ⟨hpaused, fun n => runLoop_stopped n rfl, runCommand_controlState hpaused⟩

/-- Settles O44: the state is `haltFlags s`, which is `halted`, where the commands that go on are rejected. -/
theorem haltStops : Obligations.HaltStops := by
  refine ⟨rfl, fun s => ⟨haltFlags s, exec_halt s, rfl, rfl, rfl, rfl, fun _ => rfl, ⟨rfl, rfl, rfl, rfl⟩,
    fun hstate => ?_, step_of_one_cell (i := .halt) rfl⟩⟩
  have hhalted := haltFlags_controlState hstate
  exact ⟨hhalted, runCommand_of_halted hhalted, fun inputs => stepOnce_of_halted inputs hhalted⟩

end Sys2Proof.Machine
end

section
/-! Runtime errors and the stopped states (60_exceptions.md): what a step reports to the host (rule R132), what the run loop
reports, and that only a load leaves `halted` and `faulted` (rule R134). -/

namespace Sys2Proof.Machine

variable {s t u : State}

/-! ### One step -/

/-- Settles O26: however an instruction ends, it ends in a next state. -/
theorem everyInstructionAnswersNext : Obligations.EveryInstructionAnswersNext := fun i s =>
  (exec_ending i s).imp fun _ h => h.1

/-- A `stepOnce` with the vector already presented is the step of the state itself. -/
theorem stepOnce_presented (h : step s = .next t) : stepOnce s.input s = (t, stepReply t) :=
  stepOnce_next (inputs := s.input) h

/-- Settles O50: the reply is that of the state the step ended in, and a turn with `running` set is that `stepOnce`. -/
theorem stepsReportTheirErrors : Obligations.StepsReportTheirErrors := by
  intro s t h
  rw [stepOnce_presented h]
  refine ⟨fun f hf => by rw [stepReply_fault hf], fun hf => by rw [stepReply_done hf], fun hrun => ?_⟩
  have hturn : loopStep s = (t, stepReply t) := (loopStep_running hrun).trans (stepOnce_presented h)
  exact ⟨hturn, hturn⟩

/-! ### The run loop -/

/-- Nothing among the replies is a runtime error. -/
def ReportsNoError (replies : List Reply) : Prop := ∀ cause info, Reply.runtimeError cause info ∉ replies

theorem reportsNoError_nil : ReportsNoError [] := fun _ _ => List.not_mem_nil

theorem reportsNoError_cons {r : Reply} {replies : List Reply} :
    ReportsNoError (r :: replies) ↔ (∀ cause info, r ≠ .runtimeError cause info) ∧ ReportsNoError replies := by
  simp only [ReportsNoError, List.mem_cons, not_or, forall_and, ne_comm]

/-- How a run of the loop that began without a fault can have ended: still without one and with no error reported, or with a
fault that its last reply, and no earlier one, reports. -/
inductive ErrorReportedLast : State × List Reply → Prop where
  | clean {t : State} {replies : List Reply} : t.fault = none → ReportsNoError replies → ErrorReportedLast (t, replies)
  | raised {t : State} {before : List Reply} (f : FaultRecord) : t.fault = some f → ReportsNoError before →
      ErrorReportedLast (t, before ++ [.runtimeError f.cause f.info])

/-- A reply that is no error may stand in front. -/
theorem ErrorReportedLast.cons {r : Reply} {replies : List Reply} (hr : ∀ cause info, r ≠ .runtimeError cause info)
    (h : ErrorReportedLast (t, replies)) : ErrorReportedLast (t, r :: replies) := by
  cases h with
  | clean hfault hreplies => exact .clean hfault (reportsNoError_cons.2 ⟨hr, hreplies⟩)
  | raised f hfault hbefore => exact .raised (before := r :: _) f hfault (reportsNoError_cons.2 ⟨hr, hbefore⟩)

/-- What a turn with `running` set and no fault can do: it raises no error and reports none, or it raises one, reports it and
clears `running` (rule R132). -/
theorem loopStep_cases (hrun : s.running = true) (hfault : s.fault = none) :
    ((loopStep s).1.fault = none ∧ ∀ cause info, (loopStep s).2 ≠ .runtimeError cause info) ∨
      ∃ f, (loopStep s).1.fault = some f ∧ (loopStep s).1.running = false ∧
        (loopStep s).2 = .runtimeError f.cause f.info := by
  rw [loopStep_running hrun]
  rcases stepOnce_cases s.input s with ⟨t, hstep, hreply⟩ | hreply <;> rw [hreply]
  · rcases hf : t.fault with - | f
    · exact .inl ⟨rfl, by rw [stepReply_done hf]; nofun⟩
    · have hfaulted : controlState t = some .faulted := step_controlState_of_fault hstep (by rw [hf]; nofun)
      obtain ⟨hstopped, -, -⟩ := controlState_eq_faulted.1 hfaulted
      exact .inr ⟨f, rfl, hstopped, stepReply_fault hf⟩
  · exact .inl ⟨hfault, nofun⟩

/-- By induction on the fuel: a turn that raises an error is the last, since it clears `running`. -/
theorem runLoop_errorReportedLast (n : Nat) (hfault : s.fault = none) : ErrorReportedLast (runLoop n s) := by
  induction n generalizing s with
  | zero => exact .clean hfault reportsNoError_nil
  | succ n ih =>
    cases hrun : s.running with
    | false =>
      rw [runLoop_stopped _ hrun]
      exact .clean hfault reportsNoError_nil
    | true =>
      rw [runLoop_succ n hrun]
      rcases loopStep_cases hrun hfault with ⟨hnone, hreply⟩ | ⟨f, hf, hstopped, hreply⟩
      · exact (ih hnone).cons hreply
      · rw [runLoop_stopped n hstopped, hreply]
        exact .raised (before := []) f hf reportsNoError_nil

/-- Settles O51, from the two ways the loop can have ended. -/
theorem runLoopReportsItsError : Obligations.RunLoopReportsItsError := by
  intro n s hfault
  have hended := runLoop_errorReportedLast n hfault
  generalize runLoop n s = ended at hended ⊢
  cases hended with
  | clean hnone hreplies =>
    exact ⟨fun f hf => (nomatch hnone.symm.trans hf), fun _ => hreplies,
      fun cause info hmem => hreplies cause info (List.mem_of_mem_dropLast hmem)⟩
  | raised g hg hbefore =>
    refine ⟨fun f hf => ?_, fun hnone => (nomatch hg.symm.trans hnone), ?_⟩
    · cases hg.symm.trans hf
      exact List.getLast?_concat
    · simp only [List.dropLast_concat]
      exact hbefore

/-! ### The stopped states -/

theorem SameArchitecture.refl (s : State) : SameArchitecture s s := ⟨fun _ => rfl, rfl, rfl, rfl, rfl⟩

theorem SameArchitecture.trans (hst : SameArchitecture s t) (htu : SameArchitecture t u) : SameArchitecture s u := by
  obtain ⟨hmem, hpc, hrunning, hhalted, hfault⟩ := hst
  obtain ⟨hmem', hpc', hrunning', hhalted', hfault'⟩ := htu
  exact ⟨fun a => (hmem' a).trans (hmem a), hpc'.trans hpc, hrunning'.trans hrunning, hhalted'.trans hhalted,
    hfault'.trans hfault⟩

/-- The control state is a function of the flags and the fault record (rule R24). -/
theorem SameArchitecture.controlState_eq (h : SameArchitecture s t) : controlState t = controlState s := by
  obtain ⟨-, -, hrunning, hhalted, hfault⟩ := h
  rw [controlState, hrunning, hhalted, hfault, controlState]

/-- The two control states that reject a step (rule R28). -/
def Stopped (s : State) : Prop := controlState s = some .halted ∨ controlState s = some .faulted

theorem Stopped.of_sameArchitecture (hs : Stopped s) (h : SameArchitecture s t) : Stopped t := by
  rwa [Stopped, h.controlState_eq]

theorem Stopped.running_eq_false (hs : Stopped s) : s.running = false :=
  hs.elim (fun h => (controlState_eq_halted.1 h).1) fun h => (controlState_eq_faulted.1 h).1

theorem Stopped.stepOnce_rejected (hs : Stopped s) (inputs : InputVector) : stepOnce inputs s = (s, .rejected) :=
  hs.elim (stepOnce_of_halted inputs) (stepOnce_of_faulted inputs)

theorem Stopped.runCommand_eq (hs : Stopped s) : runCommand s = s :=
  runCommand_of_not_paused (by rcases hs with h | h <;> rw [h] <;> nofun)

theorem Stopped.stopCommand_eq (hs : Stopped s) : stopCommand s = s :=
  stopCommand_of_not_running (by rcases hs with h | h <;> rw [h] <;> nofun)

/-- Every load the events ask for fails to assemble, so none is done (rule R137). -/
def LoadsFail (indirectOption : Bool) (es : List Event) : Prop :=
  ∀ text, Event.command (.loadAndReset text) ∈ es → ∃ e, assemble indirectOption text = .error e

/-- No command but a load that succeeds changes anything in a stopped state, except the cycle delay, which is no part of `S`. -/
theorem Stopped.command_sameArchitecture (hs : Stopped s) {c : Command}
    (hload : ∀ text, c = .loadAndReset text → ∃ e, assemble s.indirectOperands text = .error e) :
    SameArchitecture s (command c s).1 := by
  cases c with
  | loadAndReset text =>
    obtain ⟨e, he⟩ := hload text rfl
    rw [command, loadAndReset_error he]
    exact .refl s
  | stepOnce inputs =>
    rw [command, hs.stepOnce_rejected]
    exact .refl s
  | run =>
    rw [command, hs.runCommand_eq]
    exact .refl s
  | stop =>
    rw [command, hs.stopCommand_eq]
    exact .refl s
  | setCycleDelay | readMemory => exact .refl s

/-- A turn finds `running` clear, and the input vector the host presents is no part of `S`. -/
theorem Stopped.applyEvent_sameArchitecture (hs : Stopped s) {e : Event} {es : List Event}
    (hloads : LoadsFail s.indirectOperands (e :: es)) : SameArchitecture s (applyEvent e s).1 := by
  cases e with
  | command c => exact hs.command_sameArchitecture fun text hc => hloads text (hc ▸ List.mem_cons_self)
  | loopTurn =>
    rw [applyEvent, loopStep_stopped hs.running_eq_false]
    exact .refl s
  | present => exact .refl s

/-- By induction on the events: each finds the block stopped and with the option the loads failed under. -/
theorem Stopped.applyEvents_sameArchitecture (hs : Stopped s) {es : List Event}
    (hloads : LoadsFail s.indirectOperands es) : SameArchitecture s (applyEvents es s).1 := by
  induction es generalizing s with
  | nil => exact .refl s
  | cons e es ih =>
    have hfirst : SameArchitecture s (applyEvent e s).1 := hs.applyEvent_sameArchitecture hloads
    have hrest : LoadsFail (applyEvent e s).1.indirectOperands es := fun text hmem => by
      rw [applyEvent_indirectOperands]
      exact hloads text (List.mem_cons_of_mem e hmem)
    exact hfirst.trans (ih (hs.of_sameArchitecture hfirst) hrest)

/-- Settles O22: the events leave `S` as it is, so the block is still stopped and rejects a step. -/
theorem stoppedStatesAreLeftOnlyByLoad : Obligations.StoppedStatesAreLeftOnlyByLoad := by
  intro es s hs hloads
  have hsame : SameArchitecture s (applyEvents es s).1 := Stopped.applyEvents_sameArchitecture hs hloads
  exact ⟨hsame, (Stopped.of_sameArchitecture hs hsame).stepOnce_rejected⟩

end Sys2Proof.Machine
end

section
/-! Reset, load and the run loop's test of `running` (70_reset_and_hazards.md): where power-on and a load leave the block, and
when the loop issues a step. -/

namespace Sys2Proof.Machine

variable {s t : State}

/-! ### Power-on (rule R150) -/

/-- Settles O19: memory is the empty list, and the zeros of the first input vector lie in the domain (log entry 3). -/
theorem resetMeetsInvariant : Obligations.ResetMeetsInvariant := by
  have hmem : Memory.wf State.reset.mem := ⟨.nil, nofun⟩
  have hpc : InDomain State.reset.pc := by decide
  have hflags : LegalFlags State.reset := legalFlags_iff.2 nofun
  have hinput : State.reset.input.InDomain := by decide
  exact ⟨hmem, hpc, hflags, hinput⟩

/-- No mnemonic has the opcode 0 (rule R63). -/
theorem opcodeCode_ne_zero (o : Opcode) : o.code ≠ 0 := by
  cases o <;> decide

/-- An opcode cell that holds 0, as every cell does before a load, ends the step in `UnknownOpcodeError(0)` (rule R75). -/
theorem stepFaults_of_cell_zero (hadm : StepAdmitted s) (hin : InProgram s.pc) (hcell : s.cell s.pc = 0) :
    StepFaults s .unknownOpcode 0 (s.pc + 1) := by
  obtain ⟨-, hunknown, -⟩ := fetchAndDecodeFaults s hadm
  rw [hcell] at hunknown
  exact hunknown hin opcodeCode_ne_zero

/-- What `stepOnce` leaves and reports when its step faults in the fetch (rules R28 and R132). -/
theorem stepOnce_of_stepFaults {inputs : InputVector} {cause : RuntimeError} {info p : Int}
    (h : StepFaults { s with input := inputs } cause info p) :
    (stepOnce inputs s).1.fault = some { cause := cause, atPc := s.pc, info := info } ∧
      (stepOnce inputs s).1.pc = p ∧ (stepOnce inputs s).2 = .runtimeError cause info := by
  obtain ⟨t, hstep, hfault, -, -, hpc, -⟩ := h
  rw [stepOnce_next hstep]
  exact ⟨hfault, hpc, stepReply_fault hfault⟩

theorem reset_controlState : controlState State.reset = some .paused := rfl

/-- Settles O18: the block is `paused`, so the step is admitted, and it fetches the 0 of the empty memory. -/
theorem powerOnState : Obligations.PowerOnState := by
  refine ⟨Memory.read_nil, rfl, rfl, rfl, rfl, reset_controlState, fun inputs hinputs => ?_⟩
  have hadm : StepAdmitted { State.reset with input := inputs } := ⟨.inl reset_controlState, hinputs⟩
  have hin : InProgram State.reset.pc := by decide
  exact stepOnce_of_stepFaults (stepFaults_of_cell_zero hadm hin (Memory.read_nil _))

/-! ### Load (rule R151) -/

/-- The image stands from the program base on. -/
theorem read_load_image (image : List Int) (s : State) {k : Nat} (hk : k < image.length) :
    Memory.read (load image s).mem (1000 + k) = image[k] :=
  Memory.read_writeList_same .nil 1000 image hk

/-- Outside the image memory is zero, whatever it held. -/
theorem read_load_outside (image : List Int) (s : State) {a : Nat} (ha : a < 1000 ∨ 1000 + image.length ≤ a) :
    Memory.read (load image s).mem a = 0 :=
  (Memory.read_writeList_other [] 1000 image ha).trans (Memory.read_nil a)

/-- The memory of a load does not depend on the state loaded into, so it is that of a load at power-on, which the invariant
covers. -/
theorem load_mem_wf (s : State) {image : List Int} (hlen : image.length ≤ 1000) (himage : ∀ v ∈ image, InDomain v) :
    Memory.wf (load image s).mem := by
  have hinv : MachineInv State.reset := resetMeetsInvariant
  exact (hinv.load hlen himage).mem_wf

/-- Settles O46: the image inside, zeros outside; the rest of the state a load sets outright or leaves alone. -/
theorem loadEstablishesState : Obligations.LoadEstablishesState := fun image s hlen himage =>
  ⟨fun _ hk => read_load_image image s hk, fun _ ha => read_load_outside image s ha, rfl, rfl, rfl, rfl,
    load_controlState image s, load_mem_wf s hlen himage, ⟨rfl, rfl, rfl, rfl⟩⟩

/-! ### The run loop (rule R156) -/

/-- Fuel adds up: the loop with fuel `n + m` is the loop with fuel `m` from where that with fuel `n` ended. -/
theorem runLoop_add (n m : Nat) (s : State) :
    runLoop (n + m) s =
      ((runLoop m (runLoop n s).1).1, (runLoop n s).2 ++ (runLoop m (runLoop n s).1).2) := by
  induction n generalizing s with
  | zero => rw [Nat.zero_add, runLoop_zero, List.nil_append]
  | succ n ih =>
    cases hrun : s.running with
    | false => simp only [runLoop_stopped _ hrun, List.nil_append]
    | true => rw [Nat.add_right_comm, runLoop_succ _ hrun, runLoop_succ _ hrun, ih, List.cons_append]

/-- Once the loop has ended with `running` clear, fuel left over changes nothing. -/
theorem runLoop_add_of_stopped {n : Nat} (m : Nat) (h : (runLoop n s).1.running = false) :
    runLoop (n + m) s = runLoop n s := by
  rw [runLoop_add, runLoop_stopped m h, List.append_nil]

/-- A turn with `running` set is the step itself. -/
theorem runLoop_succ_of_step (n : Nat) (hrun : s.running = true) (hstep : step s = .next t) :
    (runLoop (n + 1) s).1 = (runLoop n t).1 := by
  rw [runLoop_succ n hrun, loopStep_running hrun, stepOnce_presented hstep]

/-- Settles O49: fuel is spent on turns only while `running` holds, and each such turn is the step. -/
theorem runLoopStopsWithRunning : Obligations.RunLoopStopsWithRunning := fun _ n m =>
  ⟨runLoop_add_of_stopped m, fun _ => runLoop_succ_of_step n⟩

end Sys2Proof.Machine
end
